-- ==== Sys2Proof/Word.lean ====
section
/-! DEFINITION. The cell: CORE's one unit of data, an XLEN-bit two's-complement signed integer
(00_scope.md R5; 20_memory.md R33 to R35). The spec reads and computes every cell as a signed integer (R5, R47) and
leaves the width XLEN a parameter (R4), so a cell is an `Int` and its range is the predicate `InRange` (DESIGN CHOICE,
log 1; safe). -/

namespace Sys2Proof

/-- MIN = -2^(XLEN-1) (R5). -/
def cellMin (xlen : Nat) : Int := -((2 ^ (xlen - 1) : Nat) : Int)

/-- MAX = 2^(XLEN-1) - 1 (R5). -/
def cellMax (xlen : Nat) : Int := ((2 ^ (xlen - 1) : Nat) : Int) - 1

/-- `inrange(z)` (R5): MIN <= z <= MAX. -/
abbrev InRange (xlen : Nat) (z : Int) : Prop := cellMin xlen ≤ z ∧ z ≤ cellMax xlen

/-- `b2i(t)` (R5): 1 when t is true, 0 when false. -/
def b2i (t : Bool) : Int := if t then 1 else 0

end Sys2Proof
end

