-- ==== Sys2Proof/Config.lean ====
section
/-! DEFINITION. What an implementation of CORE fixes: the parameters of 00_scope.md R4, and the one free value of
the spec, the draw of 42_arith.md R92. -/

namespace Sys2Proof

/-- The sixteen mnemonics (00_scope.md R1, 30_encoding.md R48), in the order of the default opcode numbers. -/
inductive Mnemonic where
  | hlt | psh | pop | add | mul | div | sub | slt | mov | set | log | ifEq | ifNe | gld | gpt | nop
deriving DecidableEq, Repr

/-- Every mnemonic, once. -/
def Mnemonic.all : List Mnemonic :=
  [.hlt, .psh, .pop, .add, .mul, .div, .sub, .slt, .mov, .set, .log, .ifEq, .ifNe, .gld, .gpt, .nop]

/-- The twelve registers of the bank by name (10_state.md R12). NREG = 12 is fixed by that list (00_scope.md R4). -/
inductive RegName where
  | a | b | c | d | e | f | i | j | ex | exa | ip | sp
deriving DecidableEq, Repr

/-- A control register: IP or SP (10_state.md R16). -/
def RegName.isControl : RegName → Bool
  | .ip | .sp => true
  | .a | .b | .c | .d | .e | .f | .i | .j | .ex | .exa => false

/-- UNKNOWN_OPCODE (00_scope.md R4; 40_dispatch_cycle.md R68). -/
inductive UnknownPolicy where
  | fault | skip
deriving DecidableEq, Repr

/-- OVERFLOW (00_scope.md R4; 42_arith.md R91). -/
inductive OverflowPolicy where
  | wrap | fault
deriving DecidableEq, Repr

/-- OPC (00_scope.md R4): the opcode number of each mnemonic. -/
structure OpcodeMap where
  hlt : Int
  psh : Int
  pop : Int
  add : Int
  mul : Int
  div : Int
  sub : Int
  slt : Int
  mov : Int
  set : Int
  log : Int
  ifEq : Int
  ifNe : Int
  gld : Int
  gpt : Int
  nop : Int
deriving DecidableEq, Repr

/-- OPC(m). -/
def OpcodeMap.get (o : OpcodeMap) : Mnemonic → Int
  | .hlt => o.hlt
  | .psh => o.psh
  | .pop => o.pop
  | .add => o.add
  | .mul => o.mul
  | .div => o.div
  | .sub => o.sub
  | .slt => o.slt
  | .mov => o.mov
  | .set => o.set
  | .log => o.log
  | .ifEq => o.ifEq
  | .ifNe => o.ifNe
  | .gld => o.gld
  | .gpt => o.gpt
  | .nop => o.nop

/-- The parameters of 00_scope.md R4. `regAt` is REGIDX read from number to name: entry n is the register whose
index number is n (log 10). The default values stand in `Sys2Proof/Machine/Defaults.lean`. -/
structure Config where
  xlen : Nat
  stackCap : Nat
  regAt : Vector RegName 12
  opc : OpcodeMap
  unknownOpcode : UnknownPolicy
  overflow : OverflowPolicy
  progMax : Nat
deriving DecidableEq, Repr

/-- The constraints of R4's table: XLEN >= 8; 1 <= STACK_CAP <= MAX; REGIDX a bijection; OPC injective into the
XLEN-bit integers; PROG_MAX <= MAX - 3, so that IP never overflows. -/
abbrev Config.WF (c : Config) : Prop :=
  8 ≤ c.xlen ∧ 1 ≤ c.stackCap ∧ (c.stackCap : Int) ≤ cellMax c.xlen ∧ c.regAt.toList.Nodup ∧
    (Mnemonic.all.map c.opc.get).Nodup ∧ (∀ m ∈ Mnemonic.all, InRange c.xlen (c.opc.get m)) ∧
    (c.progMax : Int) ≤ cellMax c.xlen - 3

/-- The free value behind `draw()` (00_scope.md R6, 42_arith.md R92): an integer no rule constrains, one for each
draw number. It has no body, so nothing can be proved of it (log 5; safe). -/
opaque Config.freeCell : Nat → Int

end Sys2Proof
end

