-- ==== Sys2Proof/Machine/Defaults.lean ====
section
/-! DEFINITION. The default values of the parameters (00_scope.md R4). The spec marks all but STACK_CAP as its own
decisions, and the opcode and register numbers as general knowledge (92_eei_decisions.md D1 to D8, D22;
93_implementation_defined.md K1 to K6). UNVERIFIED, log 11; unsafe for a claim about the repository's encoded programs. -/

namespace Sys2Proof

/-- The default OPC (30_encoding.md R48). -/
def OpcodeMap.default : OpcodeMap where
  hlt := 0
  psh := 1
  pop := 2
  add := 3
  mul := 4
  div := 5
  sub := 6
  slt := 7
  mov := 8
  set := 9
  log := 10
  ifEq := 11
  ifNe := 12
  gld := 13
  gpt := 14
  nop := 15

/-- The default REGIDX (10_state.md R12): A=0 B=1 C=2 D=3 E=4 F=5 I=6 J=7 EX=8 EXA=9 IP=10 SP=11. -/
def regAtDefault : Vector RegName 12 :=
  #v[.a, .b, .c, .d, .e, .f, .i, .j, .ex, .exa, .ip, .sp]

/-- The default parameters (R4): XLEN 32, STACK_CAP 256, UNKNOWN_OPCODE fault, OVERFLOW wrap,
PROG_MAX 2^(XLEN-1) - 4. -/
def Config.default : Config where
  xlen := 32
  stackCap := 256
  regAt := regAtDefault
  opc := OpcodeMap.default
  unknownOpcode := .fault
  overflow := .wrap
  progMax := 2 ^ 31 - 4

end Sys2Proof
end

