-- ==== Sys2Proof/Syntax.lean ====
section
/-! DEFINITION. The instructions: one constructor per row of spec/opcode_table.json (30_encoding.md R46, R48). -/

namespace Sys2Proof

/-- An instruction with its operand cells, in the order of the cells. A register operand is kept as the cell the
program holds, any integer: "all register operands are given as register indices" (30_encoding.md R47), and the
check of R54 is part of the instruction's meaning, because it raises a fault of the instruction (log 18). -/
inductive Instr where
  /-- HLT (40_dispatch_cycle.md R66). -/
  | hlt
  /-- PSH imm (41_stack.md R81). -/
  | psh (imm : Int)
  /-- POP (41_stack.md R82). -/
  | pop
  /-- ADD (42_arith.md R86). -/
  | add
  /-- MUL (42_arith.md R88). -/
  | mul
  /-- DIV (42_arith.md R89). -/
  | div
  /-- SUB (42_arith.md R87). -/
  | sub
  /-- SLT (42_arith.md R90). -/
  | slt
  /-- MOV rs rd (43_register.md R95). -/
  | mov (rs rd : Int)
  /-- SET r imm (43_register.md R96). -/
  | set (r imm : Int)
  /-- LOG r (43_register.md R97). -/
  | log (r : Int)
  /-- IF r imm tgt (44_branch.md R101). -/
  | ifEq (r imm tgt : Int)
  /-- IFN r imm tgt (44_branch.md R102). -/
  | ifNe (r imm tgt : Int)
  /-- GLD r (45_regstack.md R105). -/
  | gld (r : Int)
  /-- GPT r (45_regstack.md R106). -/
  | gpt (r : Int)
  /-- NOP (40_dispatch_cycle.md R67). -/
  | nop
deriving DecidableEq, Repr

/-- The mnemonic whose opcode selects the instruction. -/
def Instr.mnemonic : Instr → Mnemonic
  | .hlt => .hlt
  | .psh _ => .psh
  | .pop => .pop
  | .add => .add
  | .mul => .mul
  | .div => .div
  | .sub => .sub
  | .slt => .slt
  | .mov _ _ => .mov
  | .set _ _ => .set
  | .log _ => .log
  | .ifEq _ _ _ => .ifEq
  | .ifNe _ _ _ => .ifNe
  | .gld _ => .gld
  | .gpt _ => .gpt
  | .nop => .nop

end Sys2Proof
end

