-- ==== Sys2Proof/WellFormed.lean ====
section
/-! DEFINITION. Well-formed instructions: every operand is a cell value, and every register operand names a data
register (30_encoding.md R47, R50, R54). A term that fails the first check has no encoding; one that fails only the
second has an encoding and faults when it runs. -/

namespace Sys2Proof

/-- The operand is a cell value (00_scope.md R5). -/
def cellFits (c : Config) (v : Int) : Bool := decide (InRange c.xlen v)

/-- The operand passes the register-operand check (30_encoding.md R54): 0 <= v < NREG and neither REGIDX(IP) nor
REGIDX(SP). -/
def cellNamesData (c : Config) (v : Int) : Bool :=
  decide (0 ≤ v) &&
    match c.regAt[v.toNat]? with
    | some r => !r.isControl
    | none => false

/-- Every operand cell is a cell value: the instruction has an encoding. -/
def Instr.operandsFit (c : Config) : Instr → Bool
  | .hlt | .pop | .add | .mul | .div | .sub | .slt | .nop => true
  | .psh v | .log v | .gld v | .gpt v => cellFits c v
  | .mov v w | .set v w => cellFits c v && cellFits c w
  | .ifEq v w t | .ifNe v w t => cellFits c v && cellFits c w && cellFits c t

/-- Every register operand names a data register. -/
def Instr.registersName (c : Config) : Instr → Bool
  | .hlt | .psh _ | .pop | .add | .mul | .div | .sub | .slt | .nop => true
  | .mov rs rd => cellNamesData c rs && cellNamesData c rd
  | .set r _ | .log r | .ifEq r _ _ | .ifNe r _ _ | .gld r | .gpt r => cellNamesData c r

/-- A well-formed instruction of the configuration. -/
def Instr.wellFormed (c : Config) (i : Instr) : Bool := i.operandsFit c && i.registersName c

end Sys2Proof
end

