-- ==== Sys2Proof/Decode.lean ====
section
/-! DEFINITION. Decoding and encoding (30_encoding.md). An instruction is a run of whole cells: the opcode cell, then
its operand cells (R45). The decoder is total and rejects by name; the encoder follows it. -/

namespace Sys2Proof

/-- The six formats (30_encoding.md R46). -/
inductive Format where
  | z | i | r | rr | ri | rit
deriving DecidableEq, Repr

/-- How many operand cells a format has (R46). -/
def Format.arity : Format → Nat
  | .z => 0
  | .i | .r => 1
  | .rr | .ri => 2
  | .rit => 3

/-- The format of each mnemonic (R46, R48). -/
def Mnemonic.format : Mnemonic → Format
  | .hlt | .pop | .add | .sub | .mul | .div | .slt | .nop => .z
  | .psh => .i
  | .log | .gld | .gpt => .r
  | .mov => .rr
  | .set => .ri
  | .ifEq | .ifNe => .rit

/-- `arity(op)` (R45, R48). -/
def Mnemonic.arity (m : Mnemonic) : Nat := m.format.arity

/-- The mnemonic whose opcode number is the whole cell `op`; none for an unknown opcode (R48, R50). -/
def Config.mnemonicOf (c : Config) (op : Int) : Option Mnemonic :=
  Mnemonic.all.find? (fun m => c.opc.get m = op)

/-- What decoding at an index answers. -/
inductive Decoded where
  /-- An instruction of the table. -/
  | instr (i : Instr)
  /-- The opcode cell is no opcode number of OPC (R50). -/
  | unknownOpcode (op : Int)
  /-- `missing` operand cells lie at or beyond `count` (R51). -/
  | truncated (missing : Int)
  /-- The cell at `index` could not be read: the reader holds none there. -/
  | absent (index : Int)
deriving DecidableEq, Repr

/-- A one-operand instruction from the cell at `k`. -/
def decodeOne (read : Int → Option Int) (k : Int) (f : Int → Instr) : Decoded :=
  match read k with
  | some v => .instr (f v)
  | none => .absent k

/-- A two-operand instruction from the cells at `k` and `k + 1`. -/
def decodeTwo (read : Int → Option Int) (k : Int) (f : Int → Int → Instr) : Decoded :=
  match read k with
  | some v => decodeOne read (k + 1) (f v)
  | none => .absent k

/-- A three-operand instruction from the cells at `k`, `k + 1` and `k + 2`. -/
def decodeThree (read : Int → Option Int) (k : Int) (f : Int → Int → Int → Instr) : Decoded :=
  match read k with
  | some v => decodeTwo read (k + 1) (f v)
  | none => .absent k

/-- The operand cells of a known opcode at `pc`, in the order of the cells (R46, R47). -/
def decodeOperands (read : Int → Option Int) (pc : Int) : Mnemonic → Decoded
  | .hlt => .instr .hlt
  | .psh => decodeOne read (pc + 1) .psh
  | .pop => .instr .pop
  | .add => .instr .add
  | .mul => .instr .mul
  | .div => .instr .div
  | .sub => .instr .sub
  | .slt => .instr .slt
  | .mov => decodeTwo read (pc + 1) .mov
  | .set => decodeTwo read (pc + 1) .set
  | .log => decodeOne read (pc + 1) .log
  | .ifEq => decodeThree read (pc + 1) .ifEq
  | .ifNe => decodeThree read (pc + 1) .ifNe
  | .gld => decodeOne read (pc + 1) .gld
  | .gpt => decodeOne read (pc + 1) .gpt
  | .nop => .instr .nop

/-- Decoding at index `pc` of a store of `count` valid cells (R49): read the opcode cell, find its row, check that the
operands exist (R51), then read them. -/
def decode (c : Config) (count : Nat) (read : Int → Option Int) (pc : Int) : Decoded :=
  match read pc with
  | none => .absent pc
  | some op =>
    match c.mnemonicOf op with
    | none => .unknownOpcode op
    | some m =>
      if (count : Int) ≤ pc + m.arity then .truncated (pc + m.arity - count + 1)
      else decodeOperands read pc m

/-- The cell at index `k` of a list of cells. -/
def cellAt (cells : List Int) (k : Int) : Option Int :=
  if 0 ≤ k then cells[k.toNat]? else none

/-- Decoding the first instruction of a list of cells, all of them valid. -/
def decodeCells (c : Config) (cells : List Int) : Decoded :=
  decode c cells.length (cellAt cells) 0

/-- The operand cells of an instruction, in the order of the cells (R46). -/
def Instr.operands : Instr → List Int
  | .hlt | .pop | .add | .mul | .div | .sub | .slt | .nop => []
  | .psh v | .log v | .gld v | .gpt v => [v]
  | .mov v w | .set v w => [v, w]
  | .ifEq v w t | .ifNe v w t => [v, w, t]

/-- The cells of an instruction: its opcode number, then its operands (R45, R48, R53). -/
def encode (c : Config) (i : Instr) : List Int := c.opc.get i.mnemonic :: i.operands

/-- `n` cells read off the bits of `w`, the first from the lowest XLEN bits, each a two's-complement value (00_scope.md
R5). -/
def wordCells (xlen : Nat) : Nat → Nat → List Int
  | 0, _ => []
  | n + 1, w => (BitVec.ofNat xlen w).toInt :: wordCells xlen n (w / 2 ^ xlen)

/-- The bits of a list of cells, the first in the lowest XLEN bits. -/
def packCells (xlen : Nat) : List Int → Nat
  | [] => 0
  | v :: vs => (BitVec.ofInt xlen v).toNat + 2 ^ xlen * packCells xlen vs

/-- The bits of an instruction, numbered as spec/opcode_table.json numbers them. -/
def encodeWord (c : Config) (i : Instr) : Nat := packCells c.xlen (encode c i)

/-- The most cells an instruction has (30_encoding.md R52). -/
def maxCells : Nat := 4

/-- The instruction the decoder reads, under the default parameters, from an instruction whose low `nbits` bits are
`w` and whose other bits are 0. -/
def decodeTableWord (nbits w : Nat) : Option Instr :=
  match decodeCells Config.default (wordCells Config.default.xlen maxCells (w % 2 ^ nbits)) with
  | .instr i => some i
  | .unknownOpcode _ | .truncated _ | .absent _ => none

end Sys2Proof
end

