-- ==== Sys2Proof/Machine/State.lean ====
section
/-! DEFINITION. The state of CORE (10_state.md), the reasons a step can stop, and the state after reset. -/

namespace Sys2Proof.Machine

/-- A cell-addressed store: (index, cell) pairs with strictly rising indices. An unlisted cell holds no value (log 4;
safe). STACK and PROG are each one of these (20_memory.md R30). -/
abbrev Memory := List (Nat × Int)

/-- The canonical form: strictly rising indices. No entry can equal what an unlisted cell reads as, because an
unlisted cell reads as no value. -/
abbrev Memory.wf (m : Memory) : Prop := m.Pairwise (fun p q => p.1 < q.1)

/-- The Register Bank (10_state.md R11, R12): twelve plain storage cells, by name. -/
structure RegBank where
  a : Int
  b : Int
  c : Int
  d : Int
  e : Int
  f : Int
  i : Int
  j : Int
  ex : Int
  exa : Int
  ip : Int
  sp : Int
deriving DecidableEq, Repr

/-- `run` (10_state.md R20). -/
inductive RunState where
  | running | halted
deriving DecidableEq, Repr

/-- `halt_reason` (10_state.md R20). -/
inductive HaltReason where
  | none | hlt | exhausted | fault
deriving DecidableEq, Repr

/-- The causes of an architectural fault (60_exceptions.md R126). -/
inductive Cause where
  | stackOverflow | stackUnderflow | registerIndexOutOfRange | controlRegisterOperand | divisionByZero
  | unknownOpcode | truncatedInstruction | branchTargetOutOfRange | arithmeticOverflow
deriving DecidableEq, Repr

/-- The fault record `(cause, ip, opcode, info)` (10_state.md R22). -/
structure FaultRecord where
  cause : Cause
  ip : Int
  opcode : Int
  info : Int
deriving DecidableEq, Repr

/-- The operators of the `Arith` event (10_state.md R23). -/
inductive ArithOp where
  | add | sub | mul | div
deriving DecidableEq, Repr

/-- One item of the output stream (10_state.md R23). -/
inductive Event where
  /-- Class P, from LOG. -/
  | log (v : Int)
  /-- Class D, from ADD, SUB, MUL, DIV. -/
  | arith (op : ArithOp) (left right result : Int)
  /-- Class D, from NOP. -/
  | nop
  /-- Class D, from HLT. -/
  | finished
  /-- Class D, from an unknown opcode under UNKNOWN_OPCODE = skip. -/
  | unknownOpcode (ip opcode : Int)
  /-- Class D, from any fault. -/
  | fault (cause : Cause) (ip opcode info : Int)
deriving DecidableEq, Repr

/-- The state of CORE (10_state.md R10), with what the spec holds fixed for a run beside it: the parameters `cfg`, the
Program Store `prog` and its `count` (R19; log 2). `draws` is the model's own: how many free draws have been made
(log 5). -/
structure State where
  cfg : Config
  prog : Memory
  count : Nat
  regs : RegBank
  stack : Memory
  run : RunState
  haltReason : HaltReason
  branchTaken : Bool
  fault : Option FaultRecord
  out : List Event
  draws : Nat
deriving DecidableEq, Repr

/-- Why the MODEL stops. No architectural fault is among them: those are next states (60_exceptions.md R137, log 7).
None is raised from a state that meets the invariant of Safety.lean. -/
inductive Fault where
  /-- Raised by the fetch, or by fault entry reading the opcode cell: PROG holds no cell at `index`, so either the index
  is outside 0 .. count-1, which CORE never presents (50_interfaces.md R111), or the host broke its duty to fill the
  store (R116). Safe: the model stops where the spec says nothing. -/
  | programCellAbsent (index : Int)
  /-- Raised by a stack read: the cell at `index` has not been written since reset (10_state.md R18, R25;
  93_implementation_defined.md U9). Safe: no run reaches it. -/
  | stackCellUnwritten (index : Int)
  /-- Raised by a stack access outside 0 .. STACK_CAP-1: no such cell exists (20_memory.md R30). Safe: no run reaches
  it, because SP stays in its range. -/
  | stackIndexOutside (index : Int)
deriving DecidableEq, Repr

/-- Why the model gives an instruction no meaning. No arm of `exec` answers with it. -/
inductive Refusal where
  /-- Raised only by an arm of `exec` whose instruction has no meaning yet; there is none. Safe. -/
  | notModelled (mnemonic : String)
deriving DecidableEq, Repr

/-- The register bank after reset (10_state.md R25): all zero, but SP = -1 (90_conflicts.md C2). -/
def RegBank.reset : RegBank where
  a := 0
  b := 0
  c := 0
  d := 0
  e := 0
  f := 0
  i := 0
  j := 0
  ex := 0
  exa := 0
  ip := 0
  sp := -1

/-- The reset state (10_state.md R25, 70_reset_and_hazards.md R150) over given parameters, Program Store, `count` and
draw number. No stack cell has a value (log 4; safe). -/
def State.resetWith (cfg : Config) (prog : Memory) (count draws : Nat) : State where
  cfg := cfg
  prog := prog
  count := count
  regs := RegBank.reset
  stack := []
  run := .running
  haltReason := .none
  branchTaken := false
  fault := none
  out := []
  draws := draws

/-- The machine right after reset, with the default parameters and nothing loaded: the program comes from the host,
under reset (50_interfaces.md R113, R116; DESIGN CHOICE, log 3). -/
def State.reset : State := State.resetWith Config.default [] 0 0

end Sys2Proof.Machine
end

