-- ==== Sys2Proof/Machine/Flags.lean ====
section
/-! DEFINITION. The arithmetic of cells (00_scope.md R5, 42_arith.md R91). CORE has no flag but `branch_taken`
(10_state.md R21): the one condition arithmetic tests is whether the exact result is in range. -/

namespace Sys2Proof.Machine

/-- `wrap(z)` (00_scope.md R5): the cell value congruent to z modulo 2^XLEN. -/
def wrap (xlen : Nat) (z : Int) : Int := (BitVec.ofInt xlen z).toInt

/-- `tdiv(a, b)` for b != 0 (00_scope.md R5): the quotient rounded toward zero. -/
def tdiv (a b : Int) : Int := Int.tdiv a b

/-- The fault that arithmetic with exact result z raises when OVERFLOW = fault: z is out of range (42_arith.md R91). -/
abbrev Overflows (c : Config) (z : Int) : Prop := ¬ InRange c.xlen z ∧ c.overflow = .fault

/-- `code` of a cause (60_exceptions.md R126). -/
def Cause.code : Cause → Nat
  | .stackOverflow => 1
  | .stackUnderflow => 2
  | .registerIndexOutOfRange => 3
  | .controlRegisterOperand => 4
  | .divisionByZero => 5
  | .unknownOpcode => 6
  | .truncatedInstruction => 7
  | .branchTargetOutOfRange => 8
  | .arithmeticOverflow => 9

/-- Class P of 10_state.md R23: program output, which an observer may not drop. Every other event is class D. -/
def Event.isProgram : Event → Bool
  | .log _ => true
  | .arith _ _ _ _ | .nop | .finished | .unknownOpcode _ _ | .fault _ _ _ _ => false

/-- What an observer that silences diagnostics sees of the output stream (10_state.md R23, 50_interfaces.md R114). -/
def programOutput (out : List Event) : List Event := out.filter Event.isProgram

end Sys2Proof.Machine
end

