-- ==== Sys2Proof/Machine/Memory.lean ====
section
/-! DEFINITION. The operations of a cell-addressed store, and the host's two moves on it: filling the Program Store and
asserting reset (20_memory.md R30; 50_interfaces.md R113, R116). -/

namespace Sys2Proof.Machine

/-- The cell at index `a`, none where it has no value. -/
def Memory.read : Memory → Nat → Option Int
  | [], _ => none
  | (k, v) :: m, a => if k = a then some v else Memory.read m a

/-- The store with `v` at index `a`, in canonical form again. -/
def Memory.write : Memory → Nat → Int → Memory
  | [], a, v => [(a, v)]
  | (k, w) :: m, a, v =>
    if a < k then (a, v) :: (k, w) :: m
    else if a = k then (a, v) :: m
    else (k, w) :: Memory.write m a v

/-- The store with the cells of a list written from index `a` on. -/
def Memory.writeList : Memory → Nat → List Int → Memory
  | m, _, [] => m
  | m, a, v :: vs => Memory.writeList (m.write a v) (a + 1) vs

/-- The state the host releases from reset with the program `cells` in the store, `prog[0..count-1]` in order
(50_interfaces.md R116, 70_reset_and_hazards.md R152). -/
def State.loaded (cfg : Config) (cells : List Int) : State :=
  State.resetWith cfg (Memory.writeList [] 0 cells) cells.length 0

/-- Asserting reset, from any state (50_interfaces.md R113): the Program Store and `count` are the host's and stay until
the host loads again; the draw counter goes on, so that a later draw is a new one (log 17; safe). -/
def State.assertReset (s : State) : State := State.resetWith s.cfg s.prog s.count s.draws

end Sys2Proof.Machine
end

