-- ==== Sys2Proof/Machine/Operands.lean ====
section
/-! DEFINITION. What an instruction can read: registers, stack cells, program cells; and the register-operand check
(30_encoding.md R54). -/

namespace Sys2Proof.Machine

/-- How an instruction stops short of completing: it raises an architectural fault (60_exceptions.md R125), or the
model stops (log 4, 9, 16). -/
inductive Abort where
  | raise (cause : Cause) (info : Int)
  | stop (f : Fault)
deriving DecidableEq, Repr

/-- A computation that completes or aborts. What it wrote is discarded when it aborts (40_dispatch_cycle.md R60, R70). -/
abbrev Attempt (α : Type) := Except Abort α

/-- `if p: raise cause(info)`. -/
def raiseIf (p : Prop) [Decidable p] (cause : Cause) (info : Int) : Attempt Unit :=
  if p then .error (.raise cause info) else .ok ()

/-- `x[i]` for the register named `r` (00_scope.md R6). -/
def RegBank.get (b : RegBank) : RegName → Int
  | .a => b.a
  | .b => b.b
  | .c => b.c
  | .d => b.d
  | .e => b.e
  | .f => b.f
  | .i => b.i
  | .j => b.j
  | .ex => b.ex
  | .exa => b.exa
  | .ip => b.ip
  | .sp => b.sp

/-- `x[i] <- v` for the register named `r` (00_scope.md R6). -/
def RegBank.set (b : RegBank) (r : RegName) (v : Int) : RegBank :=
  match r with
  | .a => { b with a := v }
  | .b => { b with b := v }
  | .c => { b with c := v }
  | .d => { b with d := v }
  | .e => { b with e := v }
  | .f => { b with f := v }
  | .i => { b with i := v }
  | .j => { b with j := v }
  | .ex => { b with ex := v }
  | .exa => { b with exa := v }
  | .ip => { b with ip := v }
  | .sp => { b with sp := v }

/-- `pc` (00_scope.md R6). -/
def State.pc (s : State) : Int := s.regs.ip

/-- `sp` (00_scope.md R6). -/
def State.sp (s : State) : Int := s.regs.sp

/-- The value of the register named `r`. -/
def State.reg (s : State) (r : RegName) : Int := s.regs.get r

/-- `MemRead(PROG:i, 1)` (00_scope.md R6): only at 0 <= i < count (10_state.md R19). -/
def State.progCell (s : State) (i : Int) : Option Int :=
  if 0 ≤ i ∧ i < s.count then s.prog.read i.toNat else none

/-- `MemRead(STACK:i, 1)` (00_scope.md R6). -/
def State.stackCell (s : State) (i : Int) : Attempt Int :=
  if 0 ≤ i ∧ i < s.cfg.stackCap then
    match s.stack.read i.toNat with
    | some v => .ok v
    | none => .error (.stop (.stackCellUnwritten i))
  else .error (.stop (.stackIndexOutside i))

/-- The register-operand check (30_encoding.md R54): the data register that the operand cell `v` names. -/
def State.regOperand (s : State) (v : Int) : Attempt RegName :=
  if v < 0 ∨ 12 ≤ v then .error (.raise .registerIndexOutOfRange v)
  else
    match s.cfg.regAt[v.toNat]? with
    | none => .error (.raise .registerIndexOutOfRange v)
    | some r => if r.isControl then .error (.raise .controlRegisterOperand v) else .ok r

end Sys2Proof.Machine
end

