-- ==== Sys2Proof/Machine/Ops.lean ====
section
/-! DEFINITION. The shared operations: register and stack writes, push and pop (41_stack.md R80), the binary operation
(42_arith.md R85), the branch (44_branch.md R100), fault entry (60_exceptions.md R137), and the frame of every
instruction, which ends in the advance (40_dispatch_cycle.md R60, R64). -/

namespace Sys2Proof.Machine

/-- `x[i] <- v` for the register named `r` (00_scope.md R6). -/
def State.setReg (s : State) (r : RegName) (v : Int) : State := { s with regs := s.regs.set r v }

/-- `pc <- t` (00_scope.md R6). -/
def State.setPc (s : State) (t : Int) : State := { s with regs := { s.regs with ip := t } }

/-- `sp <- t` (00_scope.md R6). -/
def State.setSp (s : State) (t : Int) : State := { s with regs := { s.regs with sp := t } }

/-- `emit e` (00_scope.md R6, 10_state.md R23). -/
def State.emit (s : State) (e : Event) : State := { s with out := s.out ++ [e] }

/-- `branch_taken <- false`, at the start of every cycle (10_state.md R21). -/
def State.startCycle (s : State) : State := { s with branchTaken := false }

/-- `pc <- t; branch_taken <- true` (44_branch.md R100). -/
def State.takeBranch (s : State) (t : Int) : State := { s.setPc t with branchTaken := true }

/-- `run <- Halted; halt_reason <- h` (10_state.md R20). -/
def State.halt (s : State) (h : HaltReason) : State := { s with run := .halted, haltReason := h }

/-- `MemWrite(STACK:i, 1, v)` (00_scope.md R6). -/
def State.writeStack (s : State) (i : Int) (v : Int) : Attempt State :=
  if 0 ≤ i ∧ i < s.cfg.stackCap then .ok { s with stack := s.stack.write i.toNat v }
  else .error (.stop (.stackIndexOutside i))

/-- `draw()` number `n` (00_scope.md R6): an arbitrary cell value. -/
def drawn (c : Config) (n : Nat) : Int := wrap c.xlen (Config.freeCell n)

/-- `x[8] <- draw(); x[9] <- draw()`: EX and EXA hold unspecified cell values (42_arith.md R92; log 5; safe). -/
def State.drawScratch (s : State) : State :=
  { s with
    regs := { s.regs with ex := drawn s.cfg s.draws, exa := drawn s.cfg (s.draws + 1) }
    draws := s.draws + 2 }

/-- `push(v)` (41_stack.md R80). -/
def State.push (s : State) (v : Int) : Attempt State := do
  raiseIf ((s.cfg.stackCap : Int) - 1 ≤ s.sp) .stackOverflow s.sp
  let s' ← s.writeStack (s.sp + 1) v
  .ok (s'.setSp (s.sp + 1))

/-- `pop()` (41_stack.md R80): the popped cell keeps its value (10_state.md R18). -/
def State.pop (s : State) : Attempt (Int × State) := do
  raiseIf (s.sp < 0) .stackUnderflow s.sp
  let v ← s.stackCell s.sp
  .ok (v, s.setSp (s.sp - 1))

/-- Two pops and one push with every check made first (42_arith.md R85, R90; 41_stack.md R80): `f left right` is the
result or the fault. Answers the operands and the result beside the new state. -/
def State.replaceTopTwo (s : State) (f : Int → Int → Attempt Int) : Attempt (Int × Int × Int × State) := do
  raiseIf (s.sp < 1) .stackUnderflow s.sp
  let right ← s.stackCell s.sp
  let left ← s.stackCell (s.sp - 1)
  let r ← f left right
  let s' ← s.writeStack (s.sp - 1) r
  .ok (left, right, r, s'.setSp (s.sp - 1))

/-- The result of arithmetic whose exact result is z (42_arith.md R85, R91). -/
def narrow (c : Config) (z : Int) : Attempt Int := do
  raiseIf (Overflows c z) .arithmeticOverflow (wrap c.xlen z)
  .ok (wrap c.xlen z)

/-- `binop(OP, f)` (42_arith.md R85): `check` is the fault test before the operator (DIV's zero divisor). -/
def State.binop (s : State) (op : ArithOp) (check : Int → Int → Attempt Unit) (f : Int → Int → Int) :
    Attempt State := do
  let (left, right, r, s') ← s.replaceTopTwo (fun left right => do
    check left right
    narrow s.cfg (f left right))
  .ok (s'.drawScratch.emit (.arith op left right r))

/-- No check before the operator (ADD, SUB, MUL). -/
def noCheck : Int → Int → Attempt Unit := fun _ _ => .ok ()

/-- `if right == 0: raise DivisionByZero(left)` (42_arith.md R85, R89). -/
def zeroDivisor : Int → Int → Attempt Unit := fun left right => raiseIf (right = 0) .divisionByZero left

/-- SLT's replacement of the two top elements by `b2i(left < right)`, a signed comparison (42_arith.md R90). -/
def State.compareTopTwo (s : State) : Attempt State := do
  let x ← s.replaceTopTwo (fun left right => .ok (b2i (left < right)))
  .ok x.2.2.2

/-- `branch(cond)` once the condition is known (44_branch.md R100, R103). -/
def State.branch (s : State) (cond : Bool) (tgt : Int) : Attempt State :=
  if cond then do
    raiseIf (tgt < 0) .branchTargetOutOfRange tgt
    .ok (s.takeBranch tgt)
  else .ok s

/-- TAKING A FAULT (60_exceptions.md R137): the record, the halt and the `Fault` event, and nothing else. `op` is the
value of the faulting instruction's opcode cell. There is no return from it but reset (R138). -/
def State.enterFault (s : State) (cause : Cause) (op info : Int) : State :=
  { s with
    fault := some { cause := cause, ip := s.pc, opcode := op, info := info }
    run := .halted
    haltReason := .fault
    out := s.out ++ [.fault cause s.pc op info] }

/-- `raise cause(info)` (00_scope.md R6): the opcode cell is `MemRead(PROG:pc, 1)` (60_exceptions.md R137). -/
def State.raiseFault (s : State) (cause : Cause) (info : Int) : Host.Outcome State Fault Refusal :=
  match s.progCell s.pc with
  | some op => .next (s.enterFault cause op info)
  | none => .fault (.programCellAbsent s.pc)

/-- The advance (40_dispatch_cycle.md R64): past the opcode and its `arity` operands, unless a branch was taken. -/
def State.advance (s : State) (arity : Nat) : State :=
  if s.branchTaken then s else s.setPc (s.pc + 1 + arity)

/-- The frame of every instruction (40_dispatch_cycle.md R60): `branch_taken` is cleared, the instruction's case
`body` runs, and the advance follows; a raise discards every write and takes the fault from the state before the
instruction (R70). -/
def State.perform (s : State) (m : Mnemonic) (body : State → Attempt State) : Host.Outcome State Fault Refusal :=
  match body s.startCycle with
  | .ok t => .next (t.advance m.arity)
  | .error (.raise cause info) => s.raiseFault cause info
  | .error (.stop f) => .fault f

end Sys2Proof.Machine
end

