-- ==== Sys2Proof/Machine/Arith.lean ====
section
/-! DEFINITION. ADD, SUB, MUL, DIV, SLT (42_arith.md). -/

namespace Sys2Proof.Machine

/-- ADD (42_arith.md R86). -/
def execAdd (s : State) : Host.Outcome State Fault Refusal :=
  s.perform .add (fun s => s.binop .add noCheck (fun left right => left + right))

/-- SUB (42_arith.md R87). -/
def execSub (s : State) : Host.Outcome State Fault Refusal :=
  s.perform .sub (fun s => s.binop .sub noCheck (fun left right => left - right))

/-- MUL (42_arith.md R88). -/
def execMul (s : State) : Host.Outcome State Fault Refusal :=
  s.perform .mul (fun s => s.binop .mul noCheck (fun left right => left * right))

/-- DIV (42_arith.md R89): the zero divisor is tested first. -/
def execDiv (s : State) : Host.Outcome State Fault Refusal :=
  s.perform .div (fun s => s.binop .div zeroDivisor tdiv)

/-- SLT (42_arith.md R90): signed; no event, EX and EXA untouched (R92). -/
def execSlt (s : State) : Host.Outcome State Fault Refusal :=
  s.perform .slt (fun s => s.compareTopTwo)

end Sys2Proof.Machine
end

