-- ==== Sys2Proof/Machine/Branch.lean ====
section
/-! DEFINITION. IF and IFN (44_branch.md). -/

namespace Sys2Proof.Machine

/-- IF r imm tgt (44_branch.md R101). -/
def execIfEq (r imm tgt : Int) (s : State) : Host.Outcome State Fault Refusal :=
  s.perform .ifEq (fun s => do
    let src ← s.regOperand r
    s.branch (s.reg src == imm) tgt)

/-- IFN r imm tgt (44_branch.md R102). -/
def execIfNe (r imm tgt : Int) (s : State) : Host.Outcome State Fault Refusal :=
  s.perform .ifNe (fun s => do
    let src ← s.regOperand r
    s.branch (s.reg src != imm) tgt)

end Sys2Proof.Machine
end

