-- ==== Sys2Proof/Machine/Cycle.lean ====
section
/-! DEFINITION. The cycle's own cases: fetch, exhaustion, unknown opcodes, HLT and NOP (40_dispatch_cycle.md). -/

namespace Sys2Proof.Machine

/-- Fetch and decode at IP (40_dispatch_cycle.md R62, R63; 30_encoding.md R49). -/
def State.fetch (s : State) : Decoded := decode s.cfg s.count s.progCell s.pc

/-- Exhaustion (40_dispatch_cycle.md R61), after `branch_taken <- false` (R60; log 8). -/
def State.exhaust (s : State) : State := s.startCycle.halt .exhausted

/-- An unknown opcode (40_dispatch_cycle.md R68): a fault, or, under UNKNOWN_OPCODE = skip, a reported one-cell no-op. -/
def State.unknownOpcode (s : State) (op : Int) : Host.Outcome State Fault Refusal :=
  match s.cfg.unknownOpcode with
  | .fault => s.raiseFault .unknownOpcode op
  | .skip => .next ((s.startCycle.emit (.unknownOpcode s.pc op)).setPc (s.pc + 1))

/-- HLT (40_dispatch_cycle.md R66). -/
def execHlt (s : State) : Host.Outcome State Fault Refusal :=
  s.perform .hlt (fun s => .ok ((s.halt .hlt).emit .finished))

/-- NOP (40_dispatch_cycle.md R67). -/
def execNop (s : State) : Host.Outcome State Fault Refusal :=
  s.perform .nop (fun s => .ok (s.emit .nop))

end Sys2Proof.Machine
end

