-- ==== Sys2Proof/Machine/RegStack.lean ====
section
/-! DEFINITION. GLD and GPT (45_regstack.md). -/

namespace Sys2Proof.Machine

/-- GLD r (45_regstack.md R105): the register check comes before the stack check. -/
def execGld (r : Int) (s : State) : Host.Outcome State Fault Refusal :=
  s.perform .gld (fun s => do
    let src ← s.regOperand r
    s.push (s.reg src))

/-- GPT r (45_regstack.md R106): SP and the stack are unchanged. -/
def execGpt (r : Int) (s : State) : Host.Outcome State Fault Refusal :=
  s.perform .gpt (fun s => do
    let dst ← s.regOperand r
    raiseIf (s.sp < 0) .stackUnderflow s.sp
    let v ← s.stackCell s.sp
    .ok (s.setReg dst v))

end Sys2Proof.Machine
end

