-- ==== Sys2Proof/Machine/Register.lean ====
section
/-! DEFINITION. MOV, SET, LOG (43_register.md). -/

namespace Sys2Proof.Machine

/-- MOV rs rd (43_register.md R95): `rs` is checked first (30_encoding.md R54). -/
def execMov (rs rd : Int) (s : State) : Host.Outcome State Fault Refusal :=
  s.perform .mov (fun s => do
    let src ← s.regOperand rs
    let dst ← s.regOperand rd
    .ok (s.setReg dst (s.reg src)))

/-- SET r imm (43_register.md R96). -/
def execSet (r imm : Int) (s : State) : Host.Outcome State Fault Refusal :=
  s.perform .set (fun s => do
    let dst ← s.regOperand r
    .ok (s.setReg dst imm))

/-- LOG r (43_register.md R97). -/
def execLog (r : Int) (s : State) : Host.Outcome State Fault Refusal :=
  s.perform .log (fun s => do
    let src ← s.regOperand r
    .ok (s.emit (.log (s.reg src))))

end Sys2Proof.Machine
end

