-- ==== Sys2Proof/Machine/Stack.lean ====
section
/-! DEFINITION. PSH and POP (41_stack.md). -/

namespace Sys2Proof.Machine

/-- PSH imm (41_stack.md R81). -/
def execPsh (imm : Int) (s : State) : Host.Outcome State Fault Refusal :=
  s.perform .psh (fun s => s.push imm)

/-- POP (41_stack.md R82): the cell is not read and keeps its value. -/
def execPop (s : State) : Host.Outcome State Fault Refusal :=
  s.perform .pop (fun s => do
    raiseIf (s.sp < 0) .stackUnderflow s.sp
    .ok (s.setSp (s.sp - 1)))

end Sys2Proof.Machine
end

