-- ==== Sys2Proof/Machine/Dispatch.lean ====
section
/-! DEFINITION. Dispatch on the instruction (40_dispatch_cycle.md R63): exactly one case each. -/

namespace Sys2Proof.Machine

def exec (i : Instr) (s : State) : Host.Outcome State Fault Refusal :=
  match i with
  | .hlt => Sys2Proof.Machine.execHlt s
  | .psh imm => Sys2Proof.Machine.execPsh imm s
  | .pop => Sys2Proof.Machine.execPop s
  | .add => Sys2Proof.Machine.execAdd s
  | .mul => Sys2Proof.Machine.execMul s
  | .div => Sys2Proof.Machine.execDiv s
  | .sub => Sys2Proof.Machine.execSub s
  | .slt => Sys2Proof.Machine.execSlt s
  | .mov rs rd => Sys2Proof.Machine.execMov rs rd s
  | .set r imm => Sys2Proof.Machine.execSet r imm s
  | .log r => Sys2Proof.Machine.execLog r s
  | .ifEq r imm tgt => Sys2Proof.Machine.execIfEq r imm tgt s
  | .ifNe r imm tgt => Sys2Proof.Machine.execIfNe r imm tgt s
  | .gld r => Sys2Proof.Machine.execGld r s
  | .gpt r => Sys2Proof.Machine.execGpt r s
  | .nop => Sys2Proof.Machine.execNop s

end Sys2Proof.Machine
end

