-- ==== Sys2Proof/Machine/Step.lean ====
section
/-! DEFINITION. One step of CORE (40_dispatch_cycle.md R60), and how a test places an instruction where the next step
fetches it. -/

namespace Sys2Proof.Machine

/-- One step (R60). From a Halted state CORE takes no step and its state stays as it is (R69): the model's step answers
the same state (DEDUCED, log 6; safe). -/
def step (s : State) : Host.Outcome State Fault Refusal :=
  match s.run with
  | .halted => .next s
  | .running =>
    if (s.count : Int) ≤ s.pc then .next s.exhaust
    else
      match s.fetch with
      | .instr i => exec i s
      | .unknownOpcode op => s.unknownOpcode op
      | .truncated missing => s.raiseFault .truncatedInstruction missing
      | .absent index => .fault (.programCellAbsent index)

/-- The state with the instruction whose low `nbits` bits are `w`, its other bits 0, in the Program Store at IP, and
`count` large enough to hold it (log 14). -/
def State.withFetchWord (s : State) (nbits w : Nat) : State :=
  { s with
    prog := s.prog.writeList s.pc.toNat (wordCells s.cfg.xlen maxCells (w % 2 ^ nbits))
    count := max s.count (s.pc.toNat + maxCells) }

end Sys2Proof.Machine
end

