-- ==== Sys2Proof/Safety.lean ====
section
/-! DEFINITION. The terms in which claims about CORE are stated: the invariant of 10_state.md section 8, what a fault is
seen as, the ends of a run (70_reset_and_hazards.md R153), and what each instruction may write (40_dispatch_cycle.md
R63). -/

namespace Sys2Proof.Machine

/-- What the host owes before the run (50_interfaces.md R116; 10_state.md R19): `count <= PROG_MAX`, and every cell
below `count` filled with a cell value. -/
structure HostDuty (cfg : Config) (prog : Memory) (count : Nat) : Prop where
  canonical : prog.wf
  bounded : count ≤ cfg.progMax
  filled : ∀ n : Nat, n < count → ∃ v, prog.read n = some v ∧ InRange cfg.xlen v

/-- The invariant of a run (10_state.md section 8, clauses (a) to (e)), with the ranges of cells, the canonical form of
the stack, and the host's duty, which it rests on. -/
structure State.Inv (s : State) : Prop where
  config : s.cfg.WF
  host : HostDuty s.cfg s.prog s.count
  regsFit : ∀ r, InRange s.cfg.xlen (s.reg r)
  ipRange : 0 ≤ s.pc ∧ s.pc ≤ cellMax s.cfg.xlen
  spRange : -1 ≤ s.sp ∧ s.sp ≤ (s.cfg.stackCap : Int) - 1
  stackCanonical : s.stack.wf
  stackFits : ∀ n v, s.stack.read n = some v → n < s.cfg.stackCap ∧ InRange s.cfg.xlen v
  liveWritten : ∀ n : Nat, (n : Int) ≤ s.sp → ∃ v, s.stack.read n = some v
  faultRecorded : s.fault = none ↔ s.haltReason ≠ .fault
  haltExplained : s.run = .halted ↔ s.haltReason ≠ .none

/-- A run has ended normally: by HLT or by exhaustion (70_reset_and_hazards.md R153). -/
def State.endedNormally (s : State) : Bool :=
  decide (s.run = .halted) && (decide (s.haltReason = .hlt) || decide (s.haltReason = .exhausted))

/-- A run has ended in a fault, which is never a successful end (60_exceptions.md R125; 70_reset_and_hazards.md R153). -/
def State.endedInFault (s : State) : Bool := decide (s.run = .halted) && decide (s.haltReason = .fault)

/-- The state a fault of the instruction at IP leaves, field by field (60_exceptions.md R137). -/
def faultState (s : State) (cause : Cause) (op info : Int) : State :=
  { cfg := s.cfg
    prog := s.prog
    count := s.count
    regs := s.regs
    stack := s.stack
    run := .halted
    haltReason := .fault
    branchTaken := s.branchTaken
    fault := some { cause := cause, ip := s.pc, opcode := op, info := info }
    out := s.out ++ [.fault cause s.pc op info]
    draws := s.draws }

/-- Running `i` at `s` faults with that cause and info, whatever the opcode cell at IP holds. -/
def ExecFaults (i : Instr) (s : State) (cause : Cause) (info : Int) : Prop :=
  ∀ op, s.progCell s.pc = some op → exec i s = .next (faultState s cause op info)

/-- A step from `s` faults with that cause and info, whatever the opcode cell at IP holds. -/
def StepFaults (s : State) (cause : Cause) (info : Int) : Prop :=
  ∀ op, s.progCell s.pc = some op → step s = .next (faultState s cause op info)

/-- The operand cell `v` is the index number of the data register `r` (30_encoding.md R54). -/
def NamesData (c : Config) (v : Int) (r : RegName) : Prop :=
  0 ≤ v ∧ c.regAt[v.toNat]? = some r ∧ r.isControl = false

/-- The operand cell `v` is the index number of IP or SP (30_encoding.md R54). -/
def NamesControl (c : Config) (v : Int) : Prop :=
  0 ≤ v ∧ ∃ r, c.regAt[v.toNat]? = some r ∧ r.isControl = true

/-- The operand cell `v` is no register number (30_encoding.md R54). -/
def NamesNothing (v : Int) : Prop := v < 0 ∨ 12 ≤ v

/-- The register operands of an instruction, in operand order (30_encoding.md R46). -/
def registerOperands : Instr → List Int
  | .hlt | .psh _ | .pop | .add | .mul | .div | .sub | .slt | .nop => []
  | .mov rs rd => [rs, rd]
  | .set r _ | .log r | .ifEq r _ _ | .ifNe r _ _ | .gld r | .gpt r => [r]

/-- The two top elements of the stack: `right` on top, `left` below it (42_arith.md R85). -/
def TopTwo (s : State) (left right : Int) : Prop :=
  1 ≤ s.sp ∧ s.sp < s.cfg.stackCap ∧ s.stack.read s.sp.toNat = some right ∧
    s.stack.read (s.sp - 1).toNat = some left

/-- The stack cell a completing instruction stores to, by the index its meaning computes (20_memory.md R32); none for an
instruction that stores nothing. -/
def storeIndex (i : Instr) (s : State) : Option Nat :=
  match i with
  | .psh _ | .gld _ => some (s.sp + 1).toNat
  | .add | .sub | .mul | .div | .slt => some (s.sp - 1).toNat
  | .hlt | .pop | .mov _ _ | .set _ _ | .log _ | .ifEq _ _ _ | .ifNe _ _ _ | .gpt _ | .nop => none

/-- Instruction `i` may write register `r` (40_dispatch_cycle.md R63; 10_state.md R12): IP always (the advance or a
taken branch); SP and the scratch registers as R63's table says; a destination register where the operand names it. -/
def MayWrite (c : Config) (i : Instr) (r : RegName) : Prop :=
  r = .ip ∨
    match i with
    | .psh _ | .pop | .slt | .gld _ => r = .sp
    | .add | .sub | .mul | .div => r = .sp ∨ r = .ex ∨ r = .exa
    | .mov _ rd => NamesData c rd r
    | .set rd _ | .gpt rd => NamesData c rd r
    | .hlt | .log _ | .ifEq _ _ _ | .ifNe _ _ _ | .nop => False

/-- How far a completing instruction moves SP (10_state.md R15; 20_memory.md R32). -/
def spMove : Instr → Int
  | .psh _ | .gld _ => 1
  | .pop | .add | .sub | .mul | .div | .slt => -1
  | .hlt | .mov _ _ | .set _ _ | .log _ | .ifEq _ _ _ | .ifNe _ _ _ | .gpt _ | .nop => 0

/-- The instructions that may raise a cause once they are decoded: the "raised by" column of 60_exceptions.md R126. The
causes UnknownOpcode and TruncatedInstruction are raised before any instruction is decoded. -/
def raisers : Cause → List Mnemonic
  | .stackOverflow => [.psh, .gld]
  | .stackUnderflow => [.pop, .gpt, .add, .sub, .mul, .div, .slt]
  | .registerIndexOutOfRange | .controlRegisterOperand => [.mov, .set, .log, .ifEq, .ifNe, .gld, .gpt]
  | .divisionByZero => [.div]
  | .branchTargetOutOfRange => [.ifEq, .ifNe]
  | .arithmeticOverflow => [.add, .sub, .mul, .div]
  | .unknownOpcode | .truncatedInstruction => []

/-- The instruction reads EX or EXA through a register operand (10_state.md R12, R13). -/
def ReadsScratch (c : Config) : Instr → Prop
  | .mov r _ | .log r | .ifEq r _ _ | .ifNe r _ _ | .gld r => NamesData c r .ex ∨ NamesData c r .exa
  | .hlt | .psh _ | .pop | .add | .mul | .div | .sub | .slt | .set _ _ | .gpt _ | .nop => False

/-- Two states alike but for EX, EXA and the number of draws made (42_arith.md R92, 70_reset_and_hazards.md R157). -/
def SameButScratch (s t : State) : Prop :=
  ∃ ex exa n, t = { s with regs := { s.regs with ex := ex, exa := exa }, draws := n }

/-- Two states alike but for the stack cells above SP (10_state.md R18). -/
def SameButHidden (s t : State) : Prop :=
  (∃ m, t = { s with stack := m }) ∧ ∀ n : Nat, (n : Int) ≤ s.sp → t.stack.read n = s.stack.read n

end Sys2Proof.Machine
end

