-- ==== Sys2Proof/Certificates/Slice0/Obligations.lean ====
section
/-! DEFINITION. The statements about CORE, for the provers. The first section holds the shapes several statements share.
A statement is about every configuration, not only the defaults: the parameters stand in the state. -/

namespace Sys2Proof.Machine

/-- How an instruction stands in the store and is run from there (30_encoding.md R45, R46): its cells are OPC(m), with
the default number `number` (log 11), and then `operands`; and a running step at an index that holds those cells runs it. -/
def EncodedAs (m : Mnemonic) (number : Int) (i : Instr) (operands : List Int) : Prop :=
  (∀ c : Config, encode c i = c.opc.get m :: operands) ∧ Config.default.opc.get m = number ∧
  ∀ s : State, s.cfg.WF → s.run = .running →
    (∀ (k : Nat) (v : Int), (s.cfg.opc.get m :: operands)[k]? = some v → s.progCell (s.pc + k) = some v) →
    step s = exec i s

/-- A known opcode `m` of `arity` operands, one of whose operand cells lies at or beyond `count`, faults with the number
of missing cells (30_encoding.md R51, 60_exceptions.md R133). -/
def TruncationRule (m : Mnemonic) (arity : Int) : Prop :=
  ∀ s : State, s.cfg.WF → s.run = .running → s.progCell s.pc = some (s.cfg.opc.get m) →
    (s.count : Int) ≤ s.pc + arity → StepFaults s .truncatedInstruction (s.pc + arity - s.count + 1)

/-- Both faults of the register-operand check, on a register operand `v` of `i` with no earlier operand failing
(30_encoding.md R54). -/
def RegisterFaultRule (i : Instr) (s : State) (v : Int) : Prop :=
  (NamesNothing v → ExecFaults i s .registerIndexOutOfRange v) ∧
    (NamesControl s.cfg v → ExecFaults i s .controlRegisterOperand v)

/-- `t` is `s` with the data register `r` holding `v`, IP moved on by `n` cells, and no branch taken. -/
def RegisterWritten (s t : State) (r : RegName) (v n : Int) : Prop :=
  t.reg r = v ∧ t.pc = s.pc + n ∧ (∀ q, q ≠ r → q ≠ .ip → t.reg q = s.reg q) ∧
    t = { s with regs := t.regs, branchTaken := false }

/-- `t` is `s` after a completed arithmetic instruction with that event and result (42_arith.md R85): the result in the
second cell from the top, SP down by one, IP on by one, EX and EXA any cell values (R92). -/
def ArithmeticDone (s t : State) (op : ArithOp) (left right r : Int) : Prop :=
  ∃ ex exa n, InRange s.cfg.xlen ex ∧ InRange s.cfg.xlen exa ∧
    t = { s with
      stack := s.stack.write (s.sp - 1).toNat r
      regs := { s.regs with sp := s.sp - 1, ip := s.pc + 1, ex := ex, exa := exa }
      branchTaken := false
      out := s.out ++ [.arith op left right r]
      draws := n }

/-- The whole rule of an arithmetic instruction whose only faults are too few elements and overflow (42_arith.md R85). -/
def ArithmeticRule (m : Mnemonic) (number : Int) (i : Instr) (op : ArithOp) (f : Int → Int → Int) : Prop :=
  EncodedAs m number i [] ∧
  ∀ s : State,
    (s.sp < 1 → ExecFaults i s .stackUnderflow s.sp) ∧
    ∀ left right, TopTwo s left right →
      (¬ InRange s.cfg.xlen (f left right) → s.cfg.overflow = .fault →
        ExecFaults i s .arithmeticOverflow (wrap s.cfg.xlen (f left right))) ∧
      (InRange s.cfg.xlen (f left right) ∨ s.cfg.overflow = .wrap →
        ∃ t, exec i s = .next t ∧ ArithmeticDone s t op left right (wrap s.cfg.xlen (f left right)))

/-- The rule of a conditional branch with opcode `m`, default number `number` (44_branch.md R100, R103): `cond` is its condition on the register's
value and the immediate. -/
def BranchRule (m : Mnemonic) (number : Int) (branch : Int → Int → Int → Instr) (cond : Int → Int → Prop) : Prop :=
  (∀ v imm tgt, EncodedAs m number (branch v imm tgt) [v, imm, tgt]) ∧ TruncationRule m 3 ∧
  ∀ (s : State) (v imm tgt : Int),
    RegisterFaultRule (branch v imm tgt) s v ∧
    ∀ r, NamesData s.cfg v r →
      (cond (s.reg r) imm → tgt < 0 → ExecFaults (branch v imm tgt) s .branchTargetOutOfRange tgt) ∧
      (cond (s.reg r) imm → 0 ≤ tgt → exec (branch v imm tgt) s =
        .next { s with regs := { s.regs with ip := tgt }, branchTaken := true }) ∧
      (¬ cond (s.reg r) imm → exec (branch v imm tgt) s =
        .next { s with regs := { s.regs with ip := s.pc + 4 }, branchTaken := false })

end Sys2Proof.Machine

open Sys2Proof Sys2Proof.Machine

/-! ### Reset, the host, the invariant -/

/-- R25: what reset leaves, from any state. -/
def Obligations.ResetEstablishesTheSpecifiedValues : Prop :=
  ∀ s : State,
    s.assertReset.regs = { a := 0, b := 0, c := 0, d := 0, e := 0, f := 0, i := 0, j := 0, ex := 0, exa := 0, ip := 0, sp := -1 } ∧
    s.assertReset.run = .running ∧ s.assertReset.haltReason = .none ∧ s.assertReset.branchTaken = false ∧
    s.assertReset.fault = none ∧ s.assertReset.out = [] ∧
    State.reset.regs = s.assertReset.regs ∧ State.reset.run = .running ∧ State.reset.haltReason = .none ∧
    State.reset.branchTaken = false ∧ State.reset.fault = none ∧ State.reset.out = []

/-- 50_interfaces.md section 2: the store holds the program's cells in order, and nothing at or beyond `count` can be
read. That loading is a function on states is the model's choice (log 3). -/
def Obligations.LoadedProgramReadsBackInOrder : Prop :=
  ∀ (cfg : Config) (cells : List Int) (k : Int),
    (State.loaded cfg cells).progCell k = (if 0 ≤ k then cells[k.toNat]? else none) ∧
    (State.loaded cfg cells).count = cells.length

/-- 10_state.md section 8: the invariant holds when a program is loaded and reset released, and at
`State.reset`, whose parameters and empty store are the model's choice (log 3). -/
def Obligations.ResetMeetsTheInvariant : Prop :=
  State.reset.Inv ∧
  ∀ (cfg : Config) (cells : List Int), cfg.WF → cells.length ≤ cfg.progMax → (∀ v ∈ cells, InRange cfg.xlen v) →
    (State.loaded cfg cells).Inv

/-- 10_state.md section 8: every step keeps the invariant. -/
def Obligations.EveryStepKeepsTheInvariant : Prop :=
  ∀ s t : State, s.Inv → step s = .next t → t.Inv

/-- From a state that meets the invariant a step answers a next state: every bad operand, stack bound, divisor, opcode
and target is caught by an architectural fault, and the model never stops. That a fault is a next state is log 7. -/
def Obligations.GoodStateAlwaysSteps : Prop :=
  ∀ s : State, s.Inv → ∃ t, step s = .next t

/-- 20_memory.md section 4, 50_interfaces.md section 1: nothing writes the Program Store, `count` or the parameters. -/
def Obligations.StepLeavesProgramAndParameters : Prop :=
  ∀ s t : State, step s = .next t → t.prog = s.prog ∧ t.count = s.count ∧ t.cfg = s.cfg

/-! ### The cycle -/

/-- A running step at an index whose cells decode to an instruction is that instruction's meaning, and nothing else. -/
def Obligations.StepRunsTheDecodedInstruction : Prop :=
  ∀ (s : State) (i : Instr), s.run = .running → decode s.cfg s.count s.progCell s.pc = .instr i → step s = exec i s

/-- A running step at an index that holds the cells of an instruction runs that instruction. -/
def Obligations.StepRunsAnEncodedInstruction : Prop :=
  ∀ (s : State) (i : Instr), s.cfg.WF → s.run = .running →
    (∀ (k : Nat) (v : Int), (encode s.cfg i)[k]? = some v → s.progCell (s.pc + k) = some v) →
    step s = exec i s

/-- A halted state is frozen. That the model's step answers the state itself is the model's choice (log 6). -/
def Obligations.HaltedStateIsFrozen : Prop :=
  ∀ s : State, s.run = .halted → step s = .next s

/-- Running off the end halts with reason Exhausted: no event, no fault, no register or stack write. That the step also
clears `branch_taken` is log 8. -/
def Obligations.RunningOffTheEndHaltsExhausted : Prop :=
  ∀ s : State, s.run = .running → (s.count : Int) ≤ s.pc →
    step s = .next { s with run := .halted, haltReason := .exhausted, branchTaken := false }

/-- R68, R132: an unknown opcode faults, or is reported and skipped, as UNKNOWN_OPCODE says. Nothing is said of
`branch_taken` after a skip, which R68 does not name (log 8). -/
def Obligations.UnknownOpcodeFollowsThePolicy : Prop :=
  ∀ (s : State) (op : Int), s.run = .running → s.progCell s.pc = some op → (∀ m, s.cfg.opc.get m ≠ op) →
    (s.cfg.unknownOpcode = .fault → step s = .next (faultState s .unknownOpcode op op)) ∧
    (s.cfg.unknownOpcode = .skip → ∃ taken, step s = .next { s with
      regs := { s.regs with ip := s.pc + 1 }
      branchTaken := taken
      out := s.out ++ [.unknownOpcode s.pc op] })

/-- R133: a known opcode whose operand cells are not all below `count` faults, with 1 to 3 missing cells. -/
def Obligations.MissingOperandCellsRaiseTruncation : Prop :=
  ∀ (s : State) (m : Mnemonic), s.cfg.WF → s.run = .running → s.progCell s.pc = some (s.cfg.opc.get m) →
    (s.count : Int) ≤ s.pc + m.arity →
    StepFaults s .truncatedInstruction (s.pc + m.arity - s.count + 1) ∧
    1 ≤ s.pc + m.arity - s.count + 1 ∧ s.pc + m.arity - s.count + 1 ≤ 3

/-- R137: a step that faults writes the record, the halt and the event, and nothing else. -/
def Obligations.FaultingStepChangesNothingElse : Prop :=
  ∀ s t : State, s.haltReason ≠ .fault → step s = .next t → t.haltReason = .fault →
    ∃ c op info, s.progCell s.pc = some op ∧ t = faultState s c op info

/-- R71: at most one event a step, appended; none from exhaustion and from nine of the instructions, unless they
fault. -/
def Obligations.EachStepAppendsAtMostOneEvent : Prop :=
  ∀ s t : State, step s = .next t →
    (∃ es, es.length ≤ 1 ∧ t.out = s.out ++ es) ∧
    (s.run = .running → (s.count : Int) ≤ s.pc → t.out = s.out) ∧
    (∀ i, s.run = .running → s.fetch = .instr i →
      i.mnemonic ∈ [Mnemonic.psh, .pop, .slt, .mov, .set, .ifEq, .ifNe, .gld, .gpt] →
      t.haltReason ≠ .fault → t.out = s.out)

/-- 40_dispatch_cycle.md section 1: a completed instruction writes IP once, by a taken branch or by the advance. -/
def Obligations.InstructionWritesIPExactlyOnce : Prop :=
  ∀ (s t : State) (i : Instr), s.run = .running → s.fetch = .instr i → step s = .next t → t.haltReason ≠ .fault →
    (t.branchTaken = true ∧ ∃ r imm tgt, (i = .ifEq r imm tgt ∨ i = .ifNe r imm tgt) ∧ t.pc = tgt) ∨
    (t.branchTaken = false ∧ t.pc = s.pc + 1 + i.mnemonic.arity)

/-! ### Results, instruction by instruction -/

/-- R66. -/
def Obligations.HltHaltsAndReports : Prop :=
  EncodedAs .hlt 0 .hlt [] ∧
  ∀ s : State, exec .hlt s = .next { s with
    run := .halted
    haltReason := .hlt
    regs := { s.regs with ip := s.pc + 1 }
    branchTaken := false
    out := s.out ++ [.finished] }

/-- R67. -/
def Obligations.NopOnlyReports : Prop :=
  EncodedAs .nop 15 .nop [] ∧
  ∀ s : State, exec .nop s = .next { s with
    regs := { s.regs with ip := s.pc + 1 }
    branchTaken := false
    out := s.out ++ [.nop] }

/-- R81. -/
def Obligations.PshPushesTheImmediate : Prop :=
  (∀ imm : Int, EncodedAs .psh 1 (.psh imm) [imm]) ∧ TruncationRule .psh 1 ∧
  ∀ (s : State) (imm : Int),
    ((s.cfg.stackCap : Int) - 1 ≤ s.sp → ExecFaults (.psh imm) s .stackOverflow s.sp) ∧
    (-1 ≤ s.sp → s.sp < (s.cfg.stackCap : Int) - 1 → exec (.psh imm) s = .next { s with
      stack := s.stack.write (s.sp + 1).toNat imm
      regs := { s.regs with sp := s.sp + 1, ip := s.pc + 2 }
      branchTaken := false })

/-- R82. -/
def Obligations.PopDropsTheTop : Prop :=
  EncodedAs .pop 2 .pop [] ∧
  ∀ s : State,
    (s.sp < 0 → ExecFaults .pop s .stackUnderflow s.sp) ∧
    (0 ≤ s.sp → exec .pop s = .next { s with
      regs := { s.regs with sp := s.sp - 1, ip := s.pc + 1 }
      branchTaken := false })

/-- R86. -/
def Obligations.AddPushesTheSum : Prop := ArithmeticRule .add 3 .add .add (fun left right => left + right)

/-- R87. -/
def Obligations.SubPushesTheDifference : Prop := ArithmeticRule .sub 6 .sub .sub (fun left right => left - right)

/-- R88. -/
def Obligations.MulPushesTheProduct : Prop := ArithmeticRule .mul 4 .mul .mul (fun left right => left * right)

/-- R89. -/
def Obligations.DivPushesTheTruncatedQuotient : Prop :=
  EncodedAs .div 5 .div [] ∧
  ∀ s : State,
    (s.sp < 1 → ExecFaults .div s .stackUnderflow s.sp) ∧
    ∀ left right, TopTwo s left right →
      (right = 0 → ExecFaults .div s .divisionByZero left) ∧
      (right ≠ 0 → ¬ InRange s.cfg.xlen (tdiv left right) → s.cfg.overflow = .fault →
        ExecFaults .div s .arithmeticOverflow (wrap s.cfg.xlen (tdiv left right))) ∧
      (right ≠ 0 → InRange s.cfg.xlen (tdiv left right) ∨ s.cfg.overflow = .wrap →
        ∃ t, exec .div s = .next t ∧ ArithmeticDone s t .div left right (wrap s.cfg.xlen (tdiv left right)))

/-- R90. -/
def Obligations.SltPushesTheComparison : Prop :=
  EncodedAs .slt 7 .slt [] ∧
  ∀ s : State,
    (s.sp < 1 → ExecFaults .slt s .stackUnderflow s.sp) ∧
    ∀ left right, TopTwo s left right → exec .slt s = .next { s with
      stack := s.stack.write (s.sp - 1).toNat (if left < right then 1 else 0)
      regs := { s.regs with sp := s.sp - 1, ip := s.pc + 1 }
      branchTaken := false }

/-- R95. -/
def Obligations.MovCopiesARegister : Prop :=
  (∀ rs rd : Int, EncodedAs .mov 8 (.mov rs rd) [rs, rd]) ∧ TruncationRule .mov 2 ∧
  ∀ (s : State) (rs rd : Int),
    RegisterFaultRule (.mov rs rd) s rs ∧
    ∀ src, NamesData s.cfg rs src →
      RegisterFaultRule (.mov rs rd) s rd ∧
      ∀ dst, NamesData s.cfg rd dst →
        ∃ t, exec (.mov rs rd) s = .next t ∧ RegisterWritten s t dst (s.reg src) 3

/-- R96. -/
def Obligations.SetLoadsTheImmediate : Prop :=
  (∀ r imm : Int, EncodedAs .set 9 (.set r imm) [r, imm]) ∧ TruncationRule .set 2 ∧
  ∀ (s : State) (v imm : Int),
    RegisterFaultRule (.set v imm) s v ∧
    ∀ r, NamesData s.cfg v r → ∃ t, exec (.set v imm) s = .next t ∧ RegisterWritten s t r imm 3

/-- R97. -/
def Obligations.LogEmitsTheRegister : Prop :=
  (∀ r : Int, EncodedAs .log 10 (.log r) [r]) ∧ TruncationRule .log 1 ∧
  ∀ (s : State) (v : Int),
    RegisterFaultRule (.log v) s v ∧
    ∀ r, NamesData s.cfg v r → exec (.log v) s = .next { s with
      regs := { s.regs with ip := s.pc + 2 }
      branchTaken := false
      out := s.out ++ [.log (s.reg r)] }

/-- R101. -/
def Obligations.IfBranchesWhenEqual : Prop := BranchRule .ifEq 11 .ifEq (fun v imm => v = imm)

/-- R102. -/
def Obligations.IfnBranchesWhenNotEqual : Prop := BranchRule .ifNe 12 .ifNe (fun v imm => v ≠ imm)

/-- R105. -/
def Obligations.GldPushesTheRegister : Prop :=
  (∀ r : Int, EncodedAs .gld 13 (.gld r) [r]) ∧ TruncationRule .gld 1 ∧
  ∀ (s : State) (v : Int),
    RegisterFaultRule (.gld v) s v ∧
    ∀ r, NamesData s.cfg v r →
      ((s.cfg.stackCap : Int) - 1 ≤ s.sp → ExecFaults (.gld v) s .stackOverflow s.sp) ∧
      (-1 ≤ s.sp → s.sp < (s.cfg.stackCap : Int) - 1 → exec (.gld v) s = .next { s with
        stack := s.stack.write (s.sp + 1).toNat (s.reg r)
        regs := { s.regs with sp := s.sp + 1, ip := s.pc + 2 }
        branchTaken := false })

/-- R106. -/
def Obligations.GptCopiesTheTop : Prop :=
  (∀ r : Int, EncodedAs .gpt 14 (.gpt r) [r]) ∧ TruncationRule .gpt 1 ∧
  ∀ (s : State) (v : Int),
    RegisterFaultRule (.gpt v) s v ∧
    ∀ r, NamesData s.cfg v r →
      (s.sp < 0 → ExecFaults (.gpt v) s .stackUnderflow s.sp) ∧
      ∀ top, 0 ≤ s.sp → s.sp < s.cfg.stackCap → s.stack.read s.sp.toNat = some top →
        ∃ t, exec (.gpt v) s = .next t ∧ RegisterWritten s t r top 2

/-! ### Faults across instructions -/

/-- R129, R130: the first register operand that fails the check is reported, for every instruction that has one. -/
def Obligations.BadRegisterOperandFaults : Prop :=
  ∀ (i : Instr) (s : State) (before after : List Int) (v : Int),
    registerOperands i = before ++ v :: after → (∀ u ∈ before, ∃ r, NamesData s.cfg u r) → RegisterFaultRule i s v

/-- R127: PSH and GLD on a full stack overflow, and nothing else does (so the push after two pops cannot); the info is
STACK_CAP - 1, from any SP that is in its range. -/
def Obligations.StackOverflowOnlyFromPushes : Prop :=
  (∀ (s : State) (imm : Int), (s.cfg.stackCap : Int) - 1 ≤ s.sp → ExecFaults (.psh imm) s .stackOverflow s.sp) ∧
  (∀ (s : State) (v : Int) (r : RegName), NamesData s.cfg v r → (s.cfg.stackCap : Int) - 1 ≤ s.sp →
    ExecFaults (.gld v) s .stackOverflow s.sp) ∧
  ∀ (i : Instr) (s t : State) (f : FaultRecord), exec i s = .next t → s.fault = none → t.fault = some f →
    f.cause = .stackOverflow →
    ((∃ imm, i = .psh imm) ∨ ∃ v, i = .gld v) ∧ (s.sp ≤ (s.cfg.stackCap : Int) - 1 → f.info = (s.cfg.stackCap : Int) - 1)

/-- R128: POP and GPT need one element, the binary operations two. -/
def Obligations.StackUnderflowWhenTooFewElements : Prop :=
  (∀ s : State, s.sp < 0 → ExecFaults .pop s .stackUnderflow s.sp) ∧
  (∀ (s : State) (v : Int) (r : RegName), NamesData s.cfg v r → s.sp < 0 →
    ExecFaults (.gpt v) s .stackUnderflow s.sp) ∧
  ∀ (i : Instr) (s : State), i ∈ [Instr.add, .sub, .mul, .div, .slt] → s.sp < 1 →
    ExecFaults i s .stackUnderflow s.sp

/-- 60_exceptions.md section 1: a fault of a decoded instruction has a cause of that instruction's, its own index and its
own opcode cell. -/
def Obligations.EachCauseComesOnlyFromItsInstructions : Prop :=
  ∀ (i : Instr) (s t : State) (f : FaultRecord), exec i s = .next t → t.fault = some f → s.fault ≠ some f →
    i.mnemonic ∈ raisers f.cause ∧ f.ip = s.pc ∧ s.progCell s.pc = some f.opcode

/-- 42_arith.md section 1: under OVERFLOW = wrap no step raises ArithmeticOverflow. -/
def Obligations.WrapPolicyNeverOverflows : Prop :=
  ∀ (s t : State) (f : FaultRecord), s.cfg.overflow = .wrap → s.fault = none → step s = .next t →
    t.fault = some f → f.cause ≠ .arithmeticOverflow

/-- 60_exceptions.md section 1: the cause numbers. -/
def Obligations.CauseCodesAreTheTable : Prop :=
  Cause.code .stackOverflow = 1 ∧ Cause.code .stackUnderflow = 2 ∧ Cause.code .registerIndexOutOfRange = 3 ∧
  Cause.code .controlRegisterOperand = 4 ∧ Cause.code .divisionByZero = 5 ∧ Cause.code .unknownOpcode = 6 ∧
  Cause.code .truncatedInstruction = 7 ∧ Cause.code .branchTargetOutOfRange = 8 ∧ Cause.code .arithmeticOverflow = 9

/-! ### Arithmetic -/

/-- 00_scope.md section 5: `wrap(z)` is the one cell value congruent to z modulo 2^XLEN. -/
def Obligations.WrapIsTheCongruentCell : Prop :=
  ∀ (xlen : Nat) (z : Int), 1 ≤ xlen →
    InRange xlen (wrap xlen z) ∧ ((2 ^ xlen : Nat) : Int) ∣ z - wrap xlen z ∧
    (∀ v, InRange xlen v → ((2 ^ xlen : Nat) : Int) ∣ z - v → v = wrap xlen z) ∧
    (InRange xlen z → wrap xlen z = z)

/-- 42_arith.md section 1: division truncates toward zero. -/
def Obligations.DivisionTruncatesTowardZero : Prop :=
  ∀ left right : Int, right ≠ 0 →
    |tdiv left right| = |left| / |right| ∧
    (0 ≤ left * right → 0 ≤ tdiv left right) ∧ (left * right ≤ 0 → tdiv left right ≤ 0)

/-- 42_arith.md section 1: the one division out of range is MIN / -1, and its wrapped result is MIN. -/
def Obligations.OnlyMinOverMinusOneOverflows : Prop :=
  ∀ (xlen : Nat) (left right : Int), 1 ≤ xlen → InRange xlen left → InRange xlen right → right ≠ 0 →
    (¬ InRange xlen (tdiv left right) ↔ left = cellMin xlen ∧ right = -1) ∧
    wrap xlen (tdiv (cellMin xlen) (-1)) = cellMin xlen

/-- 42_arith.md section 1: with two elements on the stack, the binary operation is exactly two pops and a push. -/
def Obligations.BinaryOperationIsPopPopPush : Prop :=
  ∀ (s : State) (f : Int → Int → Attempt Int), 1 ≤ s.sp → s.sp < s.cfg.stackCap →
    (do let (_, _, _, t) ← s.replaceTopTwo f; .ok t : Attempt State) =
      (do
        let (right, s₁) ← s.pop
        let (left, s₂) ← s₁.pop
        let r ← f left right
        s₂.push r)

/-! ### Frames -/

/-- A completing instruction writes only the registers of its row. -/
def Obligations.OnlyTheNamedRegistersAreWritten : Prop :=
  ∀ (i : Instr) (s t : State), exec i s = .next t → ∀ r, ¬ MayWrite s.cfg i r → t.reg r = s.reg r

/-- An instruction stores at most to the one stack cell its meaning computes; no other cell of STACK or PROG changes. -/
def Obligations.OnlyTheStoredStackCellChanges : Prop :=
  ∀ (i : Instr) (s t : State), exec i s = .next t →
    (∀ a, storeIndex i s ≠ some a → t.stack.read a = s.stack.read a) ∧ (∀ a, t.prog.read a = s.prog.read a) ∧
    t.count = s.count ∧ t.cfg = s.cfg

/-- The run state and the fault record change only by HLT and by a fault. -/
def Obligations.RunStateChangesOnlyByHltOrFault : Prop :=
  ∀ (i : Instr) (s t : State), exec i s = .next t →
    (t.run = s.run ∧ t.haltReason = s.haltReason ∧ t.fault = s.fault) ∨
    (i = .hlt ∧ t.run = .halted ∧ t.haltReason = .hlt ∧ t.fault = s.fault) ∨
    (∃ c op info, s.progCell s.pc = some op ∧ t = faultState s c op info)

/-- SP moves by one per push and pop, as the instruction's row says, unless the instruction faults. -/
def Obligations.StackPointerMovesByOnePerPushOrPop : Prop :=
  ∀ (i : Instr) (s t : State), exec i s = .next t →
    t.sp = s.sp + spMove i ∨ ∃ c op info, s.progCell s.pc = some op ∧ t = faultState s c op info

/-- Program output grows only by LOG, by the register's value. -/
def Obligations.OnlyLogWritesProgramOutput : Prop :=
  ∀ (i : Instr) (s t : State), exec i s = .next t →
    programOutput t.out = programOutput s.out ∨
    ∃ v r, i = .log v ∧ NamesData s.cfg v r ∧ programOutput t.out = programOutput s.out ++ [.log (s.reg r)]

/-! ### What cannot be observed -/

/-- 10_state.md section 3: two states alike but for the stack cells above SP step alike, and stay so. -/
def Obligations.HiddenStackCellsAreUnobservable : Prop :=
  ∀ s t s' : State, SameButHidden s t → step s = .next s' → ∃ t', step t = .next t' ∧ SameButHidden s' t'

/-- 70_reset_and_hazards.md section 2: two states alike but for EX, EXA and the draws step alike, and stay so, where the
instruction run does not name EX or EXA as a source. The draw counter is the model's (log 5). -/
def Obligations.ScratchValuesDoNotLeak : Prop :=
  ∀ s t s' : State, SameButScratch s t → (∀ i, s.fetch = .instr i → ¬ ReadsScratch s.cfg i) →
    step s = .next s' → ∃ t', step t = .next t' ∧ SameButScratch s' t'

/-! ### Encoding -/

/-- Decode of encode is the instruction, whatever cells follow, in every well-formed configuration. -/
def Obligations.DecodeOfEncodeIsTheInstruction : Prop :=
  ∀ (c : Config) (i : Instr) (rest : List Int), c.WF → decodeCells c (encode c i ++ rest) = .instr i

/-- The same on bits, under the default parameters (log 11): no bit of an operand is dropped. -/
def Obligations.TableWordRoundTrip : Prop :=
  ∀ i : Instr, i.operandsFit Config.default = true →
    decodeTableWord (32 * (1 + i.mnemonic.arity)) (encodeWord Config.default i) = some i

/-- What is decoded is what stands in the store, all of it below `count`. -/
def Obligations.DecodedCellsAreTheEncoding : Prop :=
  ∀ (c : Config) (count : Nat) (read : Int → Option Int) (pc : Int) (i : Instr),
    decode c count read pc = .instr i →
    ∀ (k : Nat) (v : Int), (encode c i)[k]? = some v → read (pc + k) = some v ∧ pc + k < count

/-- An opcode matches when the whole cell equals its number; with the default numbers (log 11) the unknown opcodes are
those below 0 and above 15. -/
def Obligations.OpcodeMatchesTheWholeCell : Prop :=
  (∀ (c : Config) (op : Int) (m : Mnemonic), c.WF → (c.mnemonicOf op = some m ↔ c.opc.get m = op)) ∧
  ∀ op : Int, Config.default.mnemonicOf op = none ↔ op < 0 ∨ 15 < op

/-- A few instructions written out from the encoding tables, under the default numbers (log 11). -/
def Obligations.WrittenOutCellsDecode : Prop :=
  decodeCells Config.default [1, 3] = .instr (.psh 3) ∧
  decodeCells Config.default [8, 0, 1] = .instr (.mov 0 1) ∧
  decodeCells Config.default [9, 9, -1] = .instr (.set 9 (-1)) ∧
  decodeCells Config.default [11, 0, 5, 20] = .instr (.ifEq 0 5 20) ∧
  decodeCells Config.default [12, 0, 0, 3] = .instr (.ifNe 0 0 3) ∧
  decodeCells Config.default [6] = .instr .sub ∧
  decodeCells Config.default [11, 0, 5] = .truncated 1 ∧
  decodeCells Config.default [16] = .unknownOpcode 16
end

