-- ==== Sys2Proof/Laws/Memory.lean ====
section
/-! SUPPORT. The laws of a cell-addressed store: read after write, the canonical form, and equality of canonical
stores. -/

namespace Sys2Proof.Machine

@[simp] theorem Memory.read_nil (a : Nat) : Memory.read [] a = none := rfl

@[simp] theorem Memory.read_write_same (m : Memory) (a : Nat) (v : Int) : (m.write a v).read a = some v := by
  induction m with
  | nil => simp [Memory.write, Memory.read]
  | cons p m ih =>
    obtain ⟨k, w⟩ := p
    simp only [Memory.write]
    split
    · simp [Memory.read]
    · split
      · simp [Memory.read]
      · rename_i h
        simp [Memory.read, ih, Ne.symm h]

theorem Memory.read_write_other (m : Memory) (a b : Nat) (v : Int) (h : b ≠ a) :
    (m.write a v).read b = m.read b := by
  induction m with
  | nil => simp [Memory.write, Memory.read, Ne.symm h]
  | cons p m ih =>
    obtain ⟨k, w⟩ := p
    simp only [Memory.write]
    split
    · simp [Memory.read, Ne.symm h]
    · split
      · rename_i hk
        subst hk
        simp [Memory.read, Ne.symm h]
      · simp [Memory.read, ih]

theorem Memory.read_write (m : Memory) (a b : Nat) (v : Int) :
    (m.write a v).read b = if b = a then some v else m.read b := by
  split
  · rename_i h; subst h; exact Memory.read_write_same m b v
  · rename_i h; exact Memory.read_write_other m a b v h

/-- A written index is the new one or an old one. -/
theorem Memory.mem_write (m : Memory) (a : Nat) (v : Int) (p : Nat × Int) (h : p ∈ m.write a v) :
    p = (a, v) ∨ p ∈ m := by
  induction m with
  | nil => simpa [Memory.write] using h
  | cons q m ih =>
    obtain ⟨k, w⟩ := q
    simp only [Memory.write] at h
    split at h
    · simpa using h
    · split at h
      · rcases List.mem_cons.mp h with h | h
        · exact .inl h
        · exact .inr (List.mem_cons_of_mem _ h)
      · rcases List.mem_cons.mp h with h | h
        · exact .inr (h ▸ List.mem_cons_self ..)
        · exact (ih h).imp_right (List.mem_cons_of_mem _)

/-- A write keeps the canonical form. -/
theorem Memory.write_wf (m : Memory) (a : Nat) (v : Int) (h : m.wf) : (m.write a v).wf := by
  induction m with
  | nil => simp [Memory.write]
  | cons p m ih =>
    obtain ⟨k, w⟩ := p
    obtain ⟨hk, hm⟩ := List.pairwise_cons.mp h
    simp only [Memory.write]
    split
    · rename_i ha
      refine List.pairwise_cons.mpr ⟨fun q hq => ?_, h⟩
      rcases List.mem_cons.mp hq with rfl | hq
      · exact ha
      · exact Nat.lt_trans ha (hk q hq)
    · split
      · rename_i ha
        subst ha
        exact List.pairwise_cons.mpr ⟨hk, hm⟩
      · rename_i h1 h2
        refine List.pairwise_cons.mpr ⟨fun q hq => ?_, ih hm⟩
        rcases Memory.mem_write m a v q hq with rfl | hq
        · exact Nat.lt_of_le_of_ne (Nat.le_of_not_lt h1) (Ne.symm h2)
        · exact hk q hq

/-- Writing a list of cells keeps the canonical form. -/
theorem Memory.writeList_wf (m : Memory) (a : Nat) (vs : List Int) (h : m.wf) : (m.writeList a vs).wf := by
  induction vs generalizing m a with
  | nil => exact h
  | cons v vs ih => exact ih _ _ (Memory.write_wf m a v h)

/-- An index below every listed one has no value. -/
theorem Memory.read_below (m : Memory) (a : Nat) (h : ∀ p ∈ m, a < p.1) : m.read a = none := by
  induction m with
  | nil => rfl
  | cons p m ih =>
    obtain ⟨k, w⟩ := p
    have hk : a < k := h (k, w) (List.mem_cons_self ..)
    simp only [Memory.read, if_neg (Nat.ne_of_gt hk)]
    exact ih (fun q hq => h q (List.mem_cons_of_mem _ hq))

/-- Two canonical stores that read alike are equal. -/
theorem Memory.eq_of_read (m n : Memory) (hm : m.wf) (hn : n.wf) (h : ∀ a, m.read a = n.read a) : m = n := by
  induction m generalizing n with
  | nil =>
    cases n with
    | nil => rfl
    | cons q n => have := h q.1; simp [Memory.read] at this
  | cons p m ih =>
    cases n with
    | nil => have := h p.1; simp [Memory.read] at this
    | cons q n =>
      obtain ⟨k, w⟩ := p
      obtain ⟨l, x⟩ := q
      obtain ⟨hk, hm'⟩ := List.pairwise_cons.mp hm
      obtain ⟨hl, hn'⟩ := List.pairwise_cons.mp hn
      have hkl : k = l := by
        rcases Nat.lt_trichotomy k l with hlt | heq | hgt
        · have h1 := h k
          rw [Memory.read_below ((l, x) :: n) k (by
            intro r hr
            rcases List.mem_cons.mp hr with rfl | hr
            · exact hlt
            · exact Nat.lt_trans hlt (hl r hr))] at h1
          simp [Memory.read] at h1
        · exact heq
        · have h1 := h l
          rw [Memory.read_below ((k, w) :: m) l (by
            intro r hr
            rcases List.mem_cons.mp hr with rfl | hr
            · exact hgt
            · exact Nat.lt_trans hgt (hk r hr))] at h1
          simp [Memory.read] at h1
      subst hkl
      have hw : w = x := by have := h k; simpa [Memory.read] using this
      subst hw
      refine congrArg _ (ih n hm' hn' (fun a => ?_))
      by_cases ha : k = a
      · subst ha; rw [Memory.read_below m k hk, Memory.read_below n k hl]
      · have := h a; simpa [Memory.read, ha] using this

end Sys2Proof.Machine
end

