-- ==== Sys2Proof/Laws/State.lean ====
section
/-! SUPPORT. One lemma per field per update of the state, each true by unfolding, so that no later proof unfolds a
record update. -/

namespace Sys2Proof.Machine

@[simp] theorem State.setReg_cfg (s : State) (r : RegName) (v : Int) : (s.setReg r v).cfg = s.cfg := rfl
@[simp] theorem State.setReg_prog (s : State) (r : RegName) (v : Int) : (s.setReg r v).prog = s.prog := rfl
@[simp] theorem State.setReg_count (s : State) (r : RegName) (v : Int) : (s.setReg r v).count = s.count := rfl
@[simp] theorem State.setReg_stack (s : State) (r : RegName) (v : Int) : (s.setReg r v).stack = s.stack := rfl
@[simp] theorem State.setReg_run (s : State) (r : RegName) (v : Int) : (s.setReg r v).run = s.run := rfl
@[simp] theorem State.setReg_haltReason (s : State) (r : RegName) (v : Int) : (s.setReg r v).haltReason = s.haltReason := rfl
@[simp] theorem State.setReg_branchTaken (s : State) (r : RegName) (v : Int) : (s.setReg r v).branchTaken = s.branchTaken := rfl
@[simp] theorem State.setReg_fault (s : State) (r : RegName) (v : Int) : (s.setReg r v).fault = s.fault := rfl
@[simp] theorem State.setReg_out (s : State) (r : RegName) (v : Int) : (s.setReg r v).out = s.out := rfl
@[simp] theorem State.setReg_draws (s : State) (r : RegName) (v : Int) : (s.setReg r v).draws = s.draws := rfl
@[simp] theorem State.setReg_regs (s : State) (r : RegName) (v : Int) : (s.setReg r v).regs = s.regs.set r v := rfl

@[simp] theorem State.setPc_cfg (s : State) (t : Int) : (s.setPc t).cfg = s.cfg := rfl
@[simp] theorem State.setPc_prog (s : State) (t : Int) : (s.setPc t).prog = s.prog := rfl
@[simp] theorem State.setPc_count (s : State) (t : Int) : (s.setPc t).count = s.count := rfl
@[simp] theorem State.setPc_stack (s : State) (t : Int) : (s.setPc t).stack = s.stack := rfl
@[simp] theorem State.setPc_run (s : State) (t : Int) : (s.setPc t).run = s.run := rfl
@[simp] theorem State.setPc_haltReason (s : State) (t : Int) : (s.setPc t).haltReason = s.haltReason := rfl
@[simp] theorem State.setPc_branchTaken (s : State) (t : Int) : (s.setPc t).branchTaken = s.branchTaken := rfl
@[simp] theorem State.setPc_fault (s : State) (t : Int) : (s.setPc t).fault = s.fault := rfl
@[simp] theorem State.setPc_out (s : State) (t : Int) : (s.setPc t).out = s.out := rfl
@[simp] theorem State.setPc_draws (s : State) (t : Int) : (s.setPc t).draws = s.draws := rfl
@[simp] theorem State.setPc_regs (s : State) (t : Int) : (s.setPc t).regs = { s.regs with ip := t } := rfl
@[simp] theorem State.setPc_pc (s : State) (t : Int) : (s.setPc t).pc = t := rfl
@[simp] theorem State.setPc_sp (s : State) (t : Int) : (s.setPc t).sp = s.sp := rfl

@[simp] theorem State.setSp_cfg (s : State) (t : Int) : (s.setSp t).cfg = s.cfg := rfl
@[simp] theorem State.setSp_prog (s : State) (t : Int) : (s.setSp t).prog = s.prog := rfl
@[simp] theorem State.setSp_count (s : State) (t : Int) : (s.setSp t).count = s.count := rfl
@[simp] theorem State.setSp_stack (s : State) (t : Int) : (s.setSp t).stack = s.stack := rfl
@[simp] theorem State.setSp_run (s : State) (t : Int) : (s.setSp t).run = s.run := rfl
@[simp] theorem State.setSp_haltReason (s : State) (t : Int) : (s.setSp t).haltReason = s.haltReason := rfl
@[simp] theorem State.setSp_branchTaken (s : State) (t : Int) : (s.setSp t).branchTaken = s.branchTaken := rfl
@[simp] theorem State.setSp_fault (s : State) (t : Int) : (s.setSp t).fault = s.fault := rfl
@[simp] theorem State.setSp_out (s : State) (t : Int) : (s.setSp t).out = s.out := rfl
@[simp] theorem State.setSp_draws (s : State) (t : Int) : (s.setSp t).draws = s.draws := rfl
@[simp] theorem State.setSp_regs (s : State) (t : Int) : (s.setSp t).regs = { s.regs with sp := t } := rfl
@[simp] theorem State.setSp_pc (s : State) (t : Int) : (s.setSp t).pc = s.pc := rfl
@[simp] theorem State.setSp_sp (s : State) (t : Int) : (s.setSp t).sp = t := rfl

@[simp] theorem State.emit_cfg (s : State) (e : Event) : (s.emit e).cfg = s.cfg := rfl
@[simp] theorem State.emit_prog (s : State) (e : Event) : (s.emit e).prog = s.prog := rfl
@[simp] theorem State.emit_count (s : State) (e : Event) : (s.emit e).count = s.count := rfl
@[simp] theorem State.emit_stack (s : State) (e : Event) : (s.emit e).stack = s.stack := rfl
@[simp] theorem State.emit_run (s : State) (e : Event) : (s.emit e).run = s.run := rfl
@[simp] theorem State.emit_haltReason (s : State) (e : Event) : (s.emit e).haltReason = s.haltReason := rfl
@[simp] theorem State.emit_branchTaken (s : State) (e : Event) : (s.emit e).branchTaken = s.branchTaken := rfl
@[simp] theorem State.emit_fault (s : State) (e : Event) : (s.emit e).fault = s.fault := rfl
@[simp] theorem State.emit_out (s : State) (e : Event) : (s.emit e).out = s.out ++ [e] := rfl
@[simp] theorem State.emit_draws (s : State) (e : Event) : (s.emit e).draws = s.draws := rfl
@[simp] theorem State.emit_regs (s : State) (e : Event) : (s.emit e).regs = s.regs := rfl
@[simp] theorem State.emit_pc (s : State) (e : Event) : (s.emit e).pc = s.pc := rfl
@[simp] theorem State.emit_sp (s : State) (e : Event) : (s.emit e).sp = s.sp := rfl

@[simp] theorem State.startCycle_cfg (s : State) : (s.startCycle).cfg = s.cfg := rfl
@[simp] theorem State.startCycle_prog (s : State) : (s.startCycle).prog = s.prog := rfl
@[simp] theorem State.startCycle_count (s : State) : (s.startCycle).count = s.count := rfl
@[simp] theorem State.startCycle_stack (s : State) : (s.startCycle).stack = s.stack := rfl
@[simp] theorem State.startCycle_run (s : State) : (s.startCycle).run = s.run := rfl
@[simp] theorem State.startCycle_haltReason (s : State) : (s.startCycle).haltReason = s.haltReason := rfl
@[simp] theorem State.startCycle_branchTaken (s : State) : (s.startCycle).branchTaken = false := rfl
@[simp] theorem State.startCycle_fault (s : State) : (s.startCycle).fault = s.fault := rfl
@[simp] theorem State.startCycle_out (s : State) : (s.startCycle).out = s.out := rfl
@[simp] theorem State.startCycle_draws (s : State) : (s.startCycle).draws = s.draws := rfl
@[simp] theorem State.startCycle_regs (s : State) : (s.startCycle).regs = s.regs := rfl
@[simp] theorem State.startCycle_pc (s : State) : (s.startCycle).pc = s.pc := rfl
@[simp] theorem State.startCycle_sp (s : State) : (s.startCycle).sp = s.sp := rfl

@[simp] theorem State.takeBranch_cfg (s : State) (t : Int) : (s.takeBranch t).cfg = s.cfg := rfl
@[simp] theorem State.takeBranch_prog (s : State) (t : Int) : (s.takeBranch t).prog = s.prog := rfl
@[simp] theorem State.takeBranch_count (s : State) (t : Int) : (s.takeBranch t).count = s.count := rfl
@[simp] theorem State.takeBranch_stack (s : State) (t : Int) : (s.takeBranch t).stack = s.stack := rfl
@[simp] theorem State.takeBranch_run (s : State) (t : Int) : (s.takeBranch t).run = s.run := rfl
@[simp] theorem State.takeBranch_haltReason (s : State) (t : Int) : (s.takeBranch t).haltReason = s.haltReason := rfl
@[simp] theorem State.takeBranch_branchTaken (s : State) (t : Int) : (s.takeBranch t).branchTaken = true := rfl
@[simp] theorem State.takeBranch_fault (s : State) (t : Int) : (s.takeBranch t).fault = s.fault := rfl
@[simp] theorem State.takeBranch_out (s : State) (t : Int) : (s.takeBranch t).out = s.out := rfl
@[simp] theorem State.takeBranch_draws (s : State) (t : Int) : (s.takeBranch t).draws = s.draws := rfl
@[simp] theorem State.takeBranch_regs (s : State) (t : Int) : (s.takeBranch t).regs = { s.regs with ip := t } := rfl
@[simp] theorem State.takeBranch_pc (s : State) (t : Int) : (s.takeBranch t).pc = t := rfl
@[simp] theorem State.takeBranch_sp (s : State) (t : Int) : (s.takeBranch t).sp = s.sp := rfl

@[simp] theorem State.halt_cfg (s : State) (h : HaltReason) : (s.halt h).cfg = s.cfg := rfl
@[simp] theorem State.halt_prog (s : State) (h : HaltReason) : (s.halt h).prog = s.prog := rfl
@[simp] theorem State.halt_count (s : State) (h : HaltReason) : (s.halt h).count = s.count := rfl
@[simp] theorem State.halt_stack (s : State) (h : HaltReason) : (s.halt h).stack = s.stack := rfl
@[simp] theorem State.halt_run (s : State) (h : HaltReason) : (s.halt h).run = .halted := rfl
@[simp] theorem State.halt_haltReason (s : State) (h : HaltReason) : (s.halt h).haltReason = h := rfl
@[simp] theorem State.halt_branchTaken (s : State) (h : HaltReason) : (s.halt h).branchTaken = s.branchTaken := rfl
@[simp] theorem State.halt_fault (s : State) (h : HaltReason) : (s.halt h).fault = s.fault := rfl
@[simp] theorem State.halt_out (s : State) (h : HaltReason) : (s.halt h).out = s.out := rfl
@[simp] theorem State.halt_draws (s : State) (h : HaltReason) : (s.halt h).draws = s.draws := rfl
@[simp] theorem State.halt_regs (s : State) (h : HaltReason) : (s.halt h).regs = s.regs := rfl
@[simp] theorem State.halt_pc (s : State) (h : HaltReason) : (s.halt h).pc = s.pc := rfl
@[simp] theorem State.halt_sp (s : State) (h : HaltReason) : (s.halt h).sp = s.sp := rfl

@[simp] theorem State.drawScratch_cfg (s : State) : (s.drawScratch).cfg = s.cfg := rfl
@[simp] theorem State.drawScratch_prog (s : State) : (s.drawScratch).prog = s.prog := rfl
@[simp] theorem State.drawScratch_count (s : State) : (s.drawScratch).count = s.count := rfl
@[simp] theorem State.drawScratch_stack (s : State) : (s.drawScratch).stack = s.stack := rfl
@[simp] theorem State.drawScratch_run (s : State) : (s.drawScratch).run = s.run := rfl
@[simp] theorem State.drawScratch_haltReason (s : State) : (s.drawScratch).haltReason = s.haltReason := rfl
@[simp] theorem State.drawScratch_branchTaken (s : State) : (s.drawScratch).branchTaken = s.branchTaken := rfl
@[simp] theorem State.drawScratch_fault (s : State) : (s.drawScratch).fault = s.fault := rfl
@[simp] theorem State.drawScratch_out (s : State) : (s.drawScratch).out = s.out := rfl
@[simp] theorem State.drawScratch_draws (s : State) : (s.drawScratch).draws = s.draws + 2 := rfl
@[simp] theorem State.drawScratch_regs (s : State) : (s.drawScratch).regs = { s.regs with ex := drawn s.cfg s.draws, exa := drawn s.cfg (s.draws + 1) } := rfl
@[simp] theorem State.drawScratch_pc (s : State) : (s.drawScratch).pc = s.pc := rfl
@[simp] theorem State.drawScratch_sp (s : State) : (s.drawScratch).sp = s.sp := rfl

@[simp] theorem State.enterFault_cfg (s : State) (c : Cause) (op info : Int) : (s.enterFault c op info).cfg = s.cfg := rfl
@[simp] theorem State.enterFault_prog (s : State) (c : Cause) (op info : Int) : (s.enterFault c op info).prog = s.prog := rfl
@[simp] theorem State.enterFault_count (s : State) (c : Cause) (op info : Int) : (s.enterFault c op info).count = s.count := rfl
@[simp] theorem State.enterFault_stack (s : State) (c : Cause) (op info : Int) : (s.enterFault c op info).stack = s.stack := rfl
@[simp] theorem State.enterFault_run (s : State) (c : Cause) (op info : Int) : (s.enterFault c op info).run = .halted := rfl
@[simp] theorem State.enterFault_haltReason (s : State) (c : Cause) (op info : Int) : (s.enterFault c op info).haltReason = .fault := rfl
@[simp] theorem State.enterFault_branchTaken (s : State) (c : Cause) (op info : Int) : (s.enterFault c op info).branchTaken = s.branchTaken := rfl
@[simp] theorem State.enterFault_fault (s : State) (c : Cause) (op info : Int) : (s.enterFault c op info).fault = some { cause := c, ip := s.pc, opcode := op, info := info } := rfl
@[simp] theorem State.enterFault_out (s : State) (c : Cause) (op info : Int) : (s.enterFault c op info).out = s.out ++ [.fault c s.pc op info] := rfl
@[simp] theorem State.enterFault_draws (s : State) (c : Cause) (op info : Int) : (s.enterFault c op info).draws = s.draws := rfl
@[simp] theorem State.enterFault_regs (s : State) (c : Cause) (op info : Int) : (s.enterFault c op info).regs = s.regs := rfl
@[simp] theorem State.enterFault_pc (s : State) (c : Cause) (op info : Int) : (s.enterFault c op info).pc = s.pc := rfl
@[simp] theorem State.enterFault_sp (s : State) (c : Cause) (op info : Int) : (s.enterFault c op info).sp = s.sp := rfl

@[simp] theorem State.exhaust_cfg (s : State) : (s.exhaust).cfg = s.cfg := rfl
@[simp] theorem State.exhaust_prog (s : State) : (s.exhaust).prog = s.prog := rfl
@[simp] theorem State.exhaust_count (s : State) : (s.exhaust).count = s.count := rfl
@[simp] theorem State.exhaust_stack (s : State) : (s.exhaust).stack = s.stack := rfl
@[simp] theorem State.exhaust_run (s : State) : (s.exhaust).run = .halted := rfl
@[simp] theorem State.exhaust_haltReason (s : State) : (s.exhaust).haltReason = .exhausted := rfl
@[simp] theorem State.exhaust_branchTaken (s : State) : (s.exhaust).branchTaken = false := rfl
@[simp] theorem State.exhaust_fault (s : State) : (s.exhaust).fault = s.fault := rfl
@[simp] theorem State.exhaust_out (s : State) : (s.exhaust).out = s.out := rfl
@[simp] theorem State.exhaust_draws (s : State) : (s.exhaust).draws = s.draws := rfl
@[simp] theorem State.exhaust_regs (s : State) : (s.exhaust).regs = s.regs := rfl
@[simp] theorem State.exhaust_pc (s : State) : (s.exhaust).pc = s.pc := rfl
@[simp] theorem State.exhaust_sp (s : State) : (s.exhaust).sp = s.sp := rfl

@[simp] theorem RegBank.get_set_same (b : RegBank) (r : RegName) (v : Int) : (b.set r v).get r = v := by
  cases r <;> rfl

theorem RegBank.get_set_other (b : RegBank) (r q : RegName) (v : Int) (h : q ≠ r) : (b.set r v).get q = b.get q := by
  cases r <;> cases q <;> first | rfl | exact absurd rfl h

/-- A bank is its twelve registers. -/
theorem RegBank.ext_get (b b' : RegBank) (h : ∀ r, b.get r = b'.get r) : b = b' := by
  obtain ⟨a, bb, c, d, e, f, i, j, ex, exa, ip, sp⟩ := b
  obtain ⟨a', bb', c', d', e', f', i', j', ex', exa', ip', sp'⟩ := b'
  have ha := h .a; have hb := h .b; have hc := h .c; have hd := h .d; have he := h .e; have hf := h .f
  have hi := h .i; have hj := h .j; have hx := h .ex; have hy := h .exa; have hp := h .ip; have hs := h .sp
  simp only [RegBank.get] at ha hb hc hd he hf hi hj hx hy hp hs
  subst_vars; rfl

/-- A register write through a data register leaves IP and SP. -/
theorem State.setReg_control (s : State) (r q : RegName) (v : Int) (hr : r.isControl = false)
    (hq : q.isControl = true) : (s.setReg r v).reg q = s.reg q :=
  RegBank.get_set_other _ _ _ _ (fun h => by rw [h, hr] at hq; cases hq)

end Sys2Proof.Machine
end

