-- ==== Sys2Proof/Laws/Ops.lean ====
section
/-! SUPPORT. For each shared operation, what it can answer, said once. -/

namespace Sys2Proof.Machine

/-! ### Attempts -/

@[simp] theorem attempt_bind_ok {α β : Type} (a : α) (f : α → Attempt β) :
    ((Except.ok a : Attempt α) >>= f) = f a := rfl

@[simp] theorem attempt_bind_error {α β : Type} (e : Abort) (f : α → Attempt β) :
    ((Except.error e : Attempt α) >>= f) = .error e := rfl

theorem attempt_bind_eq_ok {α β : Type} {x : Attempt α} {f : α → Attempt β} {b : β} :
    (x >>= f) = .ok b ↔ ∃ a, x = .ok a ∧ f a = .ok b := by
  cases x with
  | ok a => simp
  | error e => simp

theorem attempt_bind_eq_error {α β : Type} {x : Attempt α} {f : α → Attempt β} {e : Abort} :
    (x >>= f) = .error e ↔ x = .error e ∨ ∃ a, x = .ok a ∧ f a = .error e := by
  cases x with
  | ok a => simp
  | error e' => simp

@[simp] theorem raiseIf_eq_ok (p : Prop) [Decidable p] (c : Cause) (d : Int) (u : Unit) :
    raiseIf p c d = .ok u ↔ ¬ p := by
  unfold raiseIf; split <;> simp_all

@[simp] theorem raiseIf_eq_error (p : Prop) [Decidable p] (c : Cause) (d : Int) (e : Abort) :
    raiseIf p c d = .error e ↔ p ∧ e = .raise c d := by
  unfold raiseIf; split <;> simp_all [eq_comm]

theorem raiseIf_pos {p : Prop} [Decidable p] (h : p) (c : Cause) (d : Int) : raiseIf p c d = .error (.raise c d) :=
  if_pos h

theorem raiseIf_neg {p : Prop} [Decidable p] (h : ¬ p) (c : Cause) (d : Int) : raiseIf p c d = .ok () :=
  if_neg h

/-! ### Reads -/

theorem progCell_eq_some {s : State} {k v : Int} :
    s.progCell k = some v ↔ 0 ≤ k ∧ k < s.count ∧ s.prog.read k.toNat = some v := by
  unfold State.progCell
  split
  · rename_i h; simp [h]
  · rename_i h
    simp only [reduceCtorEq, false_iff]
    exact fun g => h ⟨g.1, g.2.1⟩

theorem stackCell_eq_ok {s : State} {k v : Int} :
    s.stackCell k = .ok v ↔ 0 ≤ k ∧ k < s.cfg.stackCap ∧ s.stack.read k.toNat = some v := by
  unfold State.stackCell
  split
  · rename_i h
    cases hr : s.stack.read k.toNat <;> simp [h]
  · rename_i h
    simp only [reduceCtorEq, false_iff]
    exact fun g => h ⟨g.1, g.2.1⟩

/-- A stack read never raises an architectural fault: it answers a value or the model stops. -/
theorem stackCell_eq_error {s : State} {k : Int} {e : Abort} (h : s.stackCell k = .error e) : ∃ f, e = .stop f := by
  unfold State.stackCell at h
  split at h
  · split at h
    · cases h
    · cases h; exact ⟨_, rfl⟩
  · cases h; exact ⟨_, rfl⟩

/-- The register-operand check answers a data register exactly where the operand names one. -/
theorem regOperand_eq_ok {s : State} {v : Int} {r : RegName} :
    s.regOperand v = .ok r ↔ NamesData s.cfg v r := by
  unfold State.regOperand NamesData
  split
  · rename_i h
    simp only [reduceCtorEq, false_iff]
    rintro ⟨h0, h1, -⟩
    have hlt : v.toNat < 12 := (Vector.getElem?_eq_some_iff.mp h1).1
    omega
  · rename_i h
    have h0 : 0 ≤ v := by omega
    cases hr : s.cfg.regAt[v.toNat]? with
    | none => simp
    | some q =>
      cases hq : q.isControl <;> simp [h0, hq]
      · rintro rfl; exact hq
      · rintro rfl; simpa using hq

/-- The register-operand check on no register number. -/
theorem regOperand_nothing {s : State} {v : Int} (h : NamesNothing v) :
    s.regOperand v = .error (.raise .registerIndexOutOfRange v) := if_pos h

/-- The register-operand check on a control register. -/
theorem regOperand_control {s : State} {v : Int} (h : NamesControl s.cfg v) :
    s.regOperand v = .error (.raise .controlRegisterOperand v) := by
  obtain ⟨h0, r, hr, hc⟩ := h
  have hlt : v.toNat < 12 := (Vector.getElem?_eq_some_iff.mp hr).1
  unfold State.regOperand
  rw [if_neg (by omega), hr]
  simp [hc]

/-- All the faults of the register-operand check. -/
theorem regOperand_eq_error {s : State} {v : Int} {e : Abort} (h : s.regOperand v = .error e) :
    e = .raise .registerIndexOutOfRange v ∨ e = .raise .controlRegisterOperand v := by
  unfold State.regOperand at h
  split at h
  · cases h; exact .inl rfl
  · split at h
    · cases h; exact .inl rfl
    · split at h
      · cases h; exact .inr rfl
      · cases h

/-! ### Writes -/

theorem writeStack_eq_ok {s t : State} {k v : Int} :
    s.writeStack k v = .ok t ↔ 0 ≤ k ∧ k < s.cfg.stackCap ∧ t = { s with stack := s.stack.write k.toNat v } := by
  unfold State.writeStack
  split
  · rename_i h; simp [h, eq_comm]
  · rename_i h
    simp only [reduceCtorEq, false_iff]
    exact fun g => h ⟨g.1, g.2.1⟩

theorem writeStack_eq_error {s : State} {k v : Int} {e : Abort} (h : s.writeStack k v = .error e) :
    ∃ f, e = .stop f := by
  unfold State.writeStack at h
  split at h
  · cases h
  · cases h; exact ⟨_, rfl⟩

/-- What a push that completes does (41_stack.md R80). -/
theorem push_eq_ok {s t : State} {v : Int} :
    s.push v = .ok t ↔ -1 ≤ s.sp ∧ s.sp < (s.cfg.stackCap : Int) - 1 ∧
      t = { s with stack := s.stack.write (s.sp + 1).toNat v, regs := { s.regs with sp := s.sp + 1 } } := by
  simp only [State.push, attempt_bind_eq_ok, raiseIf_eq_ok, writeStack_eq_ok, Except.ok.injEq]
  constructor
  · rintro ⟨-, h, t', ⟨h0, h1, rfl⟩, rfl⟩
    exact ⟨by omega, by omega, rfl⟩
  · rintro ⟨h0, h1, rfl⟩
    exact ⟨(), by omega, _, ⟨by omega, by omega, rfl⟩, rfl⟩

theorem push_full {s : State} {v : Int} (h : (s.cfg.stackCap : Int) - 1 ≤ s.sp) :
    s.push v = .error (.raise .stackOverflow s.sp) := by
  unfold State.push; rw [raiseIf_pos h]; rfl

/-- The only fault of a push. -/
theorem push_eq_raise {s : State} {v : Int} {c : Cause} {d : Int} (h : s.push v = .error (.raise c d)) :
    (s.cfg.stackCap : Int) - 1 ≤ s.sp ∧ c = .stackOverflow ∧ d = s.sp := by
  simp only [State.push, attempt_bind_eq_error, raiseIf_eq_error] at h
  rcases h with ⟨h, he⟩ | ⟨-, -, h | ⟨t, -, h⟩⟩
  · cases he; exact ⟨h, rfl, rfl⟩
  · obtain ⟨f, hf⟩ := writeStack_eq_error h; cases hf
  · cases h

/-- What a pop that completes does (41_stack.md R80). -/
theorem pop_eq_ok {s t : State} {v : Int} :
    s.pop = .ok (v, t) ↔ 0 ≤ s.sp ∧ s.sp < s.cfg.stackCap ∧ s.stack.read s.sp.toNat = some v ∧
      t = { s with regs := { s.regs with sp := s.sp - 1 } } := by
  simp only [State.pop, attempt_bind_eq_ok, raiseIf_eq_ok, stackCell_eq_ok, Except.ok.injEq, Prod.mk.injEq]
  constructor
  · rintro ⟨-, h, v', ⟨h0, h1, h2⟩, rfl, rfl⟩
    exact ⟨h0, h1, h2, rfl⟩
  · rintro ⟨h0, h1, h2, rfl⟩
    exact ⟨(), by omega, v, ⟨h0, h1, h2⟩, rfl, rfl⟩

/-- What replacing the two top elements does when it completes. -/
theorem replaceTopTwo_eq_ok {s t : State} {f : Int → Int → Attempt Int} {left right r : Int} :
    s.replaceTopTwo f = .ok (left, right, r, t) ↔ TopTwo s left right ∧ f left right = .ok r ∧
      t = { s with stack := s.stack.write (s.sp - 1).toNat r, regs := { s.regs with sp := s.sp - 1 } } := by
  simp only [State.replaceTopTwo, attempt_bind_eq_ok, raiseIf_eq_ok, stackCell_eq_ok, writeStack_eq_ok,
    Except.ok.injEq, Prod.mk.injEq, TopTwo]
  constructor
  · rintro ⟨-, h, right', ⟨h0, h1, h2⟩, left', ⟨h3, h4, h5⟩, r', hf, t', ⟨h6, h7, rfl⟩, rfl, rfl, rfl, rfl⟩
    exact ⟨⟨by omega, h1, h2, h5⟩, hf, rfl⟩
  · rintro ⟨⟨h0, h1, h2, h3⟩, hf, rfl⟩
    exact ⟨(), by omega, right, ⟨by omega, h1, h2⟩, left, ⟨by omega, by omega, h3⟩, r, hf, _,
      ⟨by omega, by omega, rfl⟩, rfl, rfl, rfl, rfl⟩

theorem replaceTopTwo_short {s : State} {f : Int → Int → Attempt Int} (h : s.sp < 1) :
    s.replaceTopTwo f = .error (.raise .stackUnderflow s.sp) := by
  simp [State.replaceTopTwo, raiseIf_pos h]

/-- With two elements on the stack, what is raised is what `f` raises. -/
theorem replaceTopTwo_raises {s : State} {f : Int → Int → Attempt Int} {left right : Int} {e : Abort}
    (h : TopTwo s left right) (hf : f left right = .error e) : s.replaceTopTwo f = .error e := by
  obtain ⟨h0, h1, h2, h3⟩ := h
  have hr : s.stackCell s.sp = .ok right := stackCell_eq_ok.mpr ⟨by omega, h1, h2⟩
  have hl : s.stackCell (s.sp - 1) = .ok left := stackCell_eq_ok.mpr ⟨by omega, by omega, h3⟩
  simp [State.replaceTopTwo, raiseIf_neg (show ¬ s.sp < 1 by omega), hr, hl, hf]

/-- All the faults of replacing the two top elements: too few of them, or what `f` raises on them. -/
theorem replaceTopTwo_eq_raise {s : State} {f : Int → Int → Attempt Int} {c : Cause} {d : Int}
    (h : s.replaceTopTwo f = .error (.raise c d)) :
    (s.sp < 1 ∧ c = .stackUnderflow ∧ d = s.sp) ∨
      ∃ left right, TopTwo s left right ∧ f left right = .error (.raise c d) := by
  simp only [State.replaceTopTwo, attempt_bind_eq_error, raiseIf_eq_error, raiseIf_eq_ok] at h
  rcases h with ⟨h, he⟩ | ⟨-, hsp, h | ⟨right, hr, h | ⟨left, hl, h | ⟨r, -, h | ⟨t, -, h⟩⟩⟩⟩⟩
  · cases he; exact .inl ⟨h, rfl, rfl⟩
  · obtain ⟨f, hf⟩ := stackCell_eq_error h; cases hf
  · obtain ⟨f, hf⟩ := stackCell_eq_error h; cases hf
  · obtain ⟨h0, h1, h2⟩ := stackCell_eq_ok.mp hr
    obtain ⟨-, -, h3⟩ := stackCell_eq_ok.mp hl
    exact .inr ⟨left, right, ⟨by omega, h1, h2, h3⟩, h⟩
  · obtain ⟨f, hf⟩ := writeStack_eq_error h; cases hf
  · cases h

theorem narrow_eq_ok {c : Config} {z : Int} {r : Int} :
    narrow c z = .ok r ↔ ¬ Overflows c z ∧ r = wrap c.xlen z := by
  simp only [narrow, attempt_bind_eq_ok, raiseIf_eq_ok, Except.ok.injEq]
  constructor
  · rintro ⟨-, h, rfl⟩; exact ⟨h, rfl⟩
  · rintro ⟨h, rfl⟩; exact ⟨(), h, rfl⟩

theorem narrow_eq_error {c : Config} {z : Int} {e : Abort} :
    narrow c z = .error e ↔ Overflows c z ∧ e = .raise .arithmeticOverflow (wrap c.xlen z) := by
  simp only [narrow, attempt_bind_eq_error, raiseIf_eq_error]
  constructor
  · rintro (h | ⟨-, -, h⟩)
    · exact h
    · cases h
  · exact .inl

/-- What the binary operation does when it completes (42_arith.md R85). -/
theorem binop_eq_ok {s t : State} {op : ArithOp} {check : Int → Int → Attempt Unit} {f : Int → Int → Int} :
    s.binop op check f = .ok t ↔ ∃ left right, TopTwo s left right ∧ check left right = .ok () ∧
      ¬ Overflows s.cfg (f left right) ∧
      t = { s with
        stack := s.stack.write (s.sp - 1).toNat (wrap s.cfg.xlen (f left right))
        regs := { s.regs with sp := s.sp - 1, ex := drawn s.cfg s.draws, exa := drawn s.cfg (s.draws + 1) }
        draws := s.draws + 2
        out := s.out ++ [.arith op left right (wrap s.cfg.xlen (f left right))] } := by
  simp only [State.binop, attempt_bind_eq_ok, Prod.exists, replaceTopTwo_eq_ok, narrow_eq_ok, Except.ok.injEq]
  constructor
  · rintro ⟨left, right, r, t', ⟨ht, ⟨⟨⟩, hc, ho, rfl⟩, rfl⟩, rfl⟩
    exact ⟨left, right, ht, hc, ho, rfl⟩
  · rintro ⟨left, right, ht, hc, ho, rfl⟩
    exact ⟨left, right, _, _, ⟨ht, ⟨(), hc, ho, rfl⟩, rfl⟩, rfl⟩

theorem binop_short {s : State} {op : ArithOp} {check : Int → Int → Attempt Unit} {f : Int → Int → Int}
    (h : s.sp < 1) : s.binop op check f = .error (.raise .stackUnderflow s.sp) := by
  simp [State.binop, replaceTopTwo_short h]

/-- With two elements on the stack, what is raised is what the check raises, or the overflow. -/
theorem binop_raises {s : State} {op : ArithOp} {check : Int → Int → Attempt Unit} {f : Int → Int → Int}
    {left right : Int} {e : Abort} (h : TopTwo s left right)
    (he : (check left right >>= fun _ => narrow s.cfg (f left right)) = .error e) :
    s.binop op check f = .error e := by
  have h' := replaceTopTwo_raises (f := fun l r => check l r >>= fun _ => narrow s.cfg (f l r)) h he
  simp only [State.binop]
  rw [h']
  rfl

/-- All the faults of the binary operation. -/
theorem binop_eq_raise {s : State} {op : ArithOp} {check : Int → Int → Attempt Unit} {f : Int → Int → Int}
    {c : Cause} {d : Int} (h : s.binop op check f = .error (.raise c d)) :
    (s.sp < 1 ∧ c = .stackUnderflow ∧ d = s.sp) ∨ ∃ left right, TopTwo s left right ∧
      (check left right = .error (.raise c d) ∨
        (Overflows s.cfg (f left right) ∧ c = .arithmeticOverflow ∧ d = wrap s.cfg.xlen (f left right))) := by
  simp only [State.binop, attempt_bind_eq_error, Prod.exists] at h
  rcases h with h | ⟨_, _, _, _, _, h⟩
  · rcases replaceTopTwo_eq_raise h with h | ⟨left, right, ht, h⟩
    · exact .inl h
    · refine .inr ⟨left, right, ht, ?_⟩
      rcases attempt_bind_eq_error.mp h with h | ⟨-, -, h⟩
      · exact .inl h
      · obtain ⟨ho, he⟩ := narrow_eq_error.mp h
        cases he
        exact .inr ⟨ho, rfl, rfl⟩
  · cases h

/-- What the comparison does when it completes (42_arith.md R90). -/
theorem compareTopTwo_eq_ok {s t : State} :
    s.compareTopTwo = .ok t ↔ ∃ left right, TopTwo s left right ∧
      t = { s with
        stack := s.stack.write (s.sp - 1).toNat (b2i (left < right)), regs := { s.regs with sp := s.sp - 1 } } := by
  simp only [State.compareTopTwo, attempt_bind_eq_ok, Prod.exists, replaceTopTwo_eq_ok, Except.ok.injEq]
  constructor
  · rintro ⟨left, right, r, t', ⟨ht, rfl, rfl⟩, rfl⟩
    exact ⟨left, right, ht, rfl⟩
  · rintro ⟨left, right, ht, rfl⟩
    exact ⟨left, right, _, _, ⟨ht, rfl, rfl⟩, rfl⟩

/-- The only fault of the comparison. -/
theorem compareTopTwo_eq_raise {s : State} {c : Cause} {d : Int} :
    s.compareTopTwo = .error (.raise c d) ↔ s.sp < 1 ∧ c = .stackUnderflow ∧ d = s.sp := by
  constructor
  · intro h
    rcases attempt_bind_eq_error.mp h with h | ⟨_, _, h⟩
    · rcases replaceTopTwo_eq_raise h with h | ⟨_, _, _, h⟩
      · exact h
      · cases h
    · cases h
  · rintro ⟨h, rfl, rfl⟩
    unfold State.compareTopTwo; rw [replaceTopTwo_short h]; rfl

/-- What a branch does when it completes: the jump, or nothing. -/
theorem branch_eq_ok {s t : State} {cond : Bool} {tgt : Int} :
    s.branch cond tgt = .ok t ↔ (cond = true ∧ 0 ≤ tgt ∧ t = s.takeBranch tgt) ∨ (cond = false ∧ t = s) := by
  unfold State.branch
  cases cond with
  | false => simp [eq_comm]
  | true =>
    rw [if_pos rfl, attempt_bind_eq_ok]
    constructor
    · rintro ⟨_, h, ht⟩
      cases ht
      exact .inl ⟨rfl, by have := (raiseIf_eq_ok _ _ _ _).mp h; omega, rfl⟩
    · rintro (⟨-, h, rfl⟩ | ⟨h, -⟩)
      · exact ⟨(), raiseIf_neg (by omega) _ _, rfl⟩
      · cases h

theorem branch_eq_error {s : State} {cond : Bool} {tgt : Int} {e : Abort} :
    s.branch cond tgt = .error e ↔ cond = true ∧ tgt < 0 ∧ e = .raise .branchTargetOutOfRange tgt := by
  unfold State.branch
  cases cond <;> simp [attempt_bind_eq_error]

/-! ### The frame of an instruction -/

/-- Everything an instruction's frame can answer as a next state: the case completed and the advance followed, or it
raised a fault and the fault was taken from the state before. -/
theorem perform_eq_next {s t : State} {m : Mnemonic} {body : State → Attempt State} :
    s.perform m body = .next t ↔
      (∃ u, body s.startCycle = .ok u ∧ t = u.advance m.arity) ∨
      (∃ c d op, body s.startCycle = .error (.raise c d) ∧ s.progCell s.pc = some op ∧ t = s.enterFault c op d) := by
  unfold State.perform
  cases hb : body s.startCycle with
  | ok u => simp [eq_comm]
  | error e =>
    cases e with
    | raise c d =>
      simp only [State.raiseFault]
      cases hp : s.progCell s.pc <;> simp [eq_comm]
    | stop f => simp

theorem perform_ok {s u : State} {m : Mnemonic} {body : State → Attempt State} (h : body s.startCycle = .ok u) :
    s.perform m body = .next (u.advance m.arity) := perform_eq_next.mpr (.inl ⟨u, h, rfl⟩)

/-- A case that raises: the fault is taken from the state before the instruction. -/
theorem perform_raise {s : State} {m : Mnemonic} {body : State → Attempt State} {c : Cause} {d op : Int}
    (h : body s.startCycle = .error (.raise c d)) (hp : s.progCell s.pc = some op) :
    s.perform m body = .next (s.enterFault c op d) := perform_eq_next.mpr (.inr ⟨c, d, op, h, hp, rfl⟩)

/-- The fault entry, field by field. -/
theorem enterFault_eq_faultState (s : State) (c : Cause) (op d : Int) : s.enterFault c op d = faultState s c op d := rfl

theorem raiseFault_eq_next {s t : State} {c : Cause} {d : Int} :
    s.raiseFault c d = .next t ↔ ∃ op, s.progCell s.pc = some op ∧ t = faultState s c op d := by
  unfold State.raiseFault
  cases s.progCell s.pc <;> simp [eq_comm, enterFault_eq_faultState]

/-! ### The step -/

/-- Everything a step can answer as a next state. -/
theorem step_cases {s t : State} (h : step s = .next t) :
    (s.run = .halted ∧ t = s) ∨
    (s.run = .running ∧ (s.count : Int) ≤ s.pc ∧ t = s.exhaust) ∨
    (s.run = .running ∧ s.pc < s.count ∧ ∃ i, s.fetch = .instr i ∧ exec i s = .next t) ∨
    (s.run = .running ∧ s.pc < s.count ∧ ∃ op, s.fetch = .unknownOpcode op ∧ s.unknownOpcode op = .next t) ∨
    (s.run = .running ∧ s.pc < s.count ∧ ∃ n, s.fetch = .truncated n ∧
      s.raiseFault .truncatedInstruction n = .next t) := by
  unfold step at h
  cases hr : s.run with
  | halted => rw [hr] at h; cases h; exact .inl ⟨rfl, rfl⟩
  | running =>
    rw [hr] at h
    dsimp only at h
    split at h
    · rename_i hc; cases h; exact .inr (.inl ⟨rfl, hc, rfl⟩)
    · rename_i hc
      have hlt : s.pc < s.count := by omega
      cases hf : s.fetch with
      | instr i => rw [hf] at h; exact .inr (.inr (.inl ⟨rfl, hlt, i, rfl, h⟩))
      | unknownOpcode op => rw [hf] at h; exact .inr (.inr (.inr (.inl ⟨rfl, hlt, op, rfl, h⟩)))
      | truncated n => rw [hf] at h; exact .inr (.inr (.inr (.inr ⟨rfl, hlt, n, rfl, h⟩)))
      | absent k => rw [hf] at h; cases h

end Sys2Proof.Machine
end

