-- ==== Sys2Proof/Laws/Exec.lean ====
section
/-! SUPPORT. What `exec` can answer, said once: the case each instruction performs, and the inversion of `exec` into the
fault taken or the instruction completed. -/

namespace Sys2Proof.Machine

theorem exec_hlt (s : State) : exec .hlt s = s.perform .hlt (fun s => .ok ((s.halt .hlt).emit .finished)) := rfl

theorem exec_psh (imm : Int) (s : State) : exec (.psh imm) s = s.perform .psh (fun s => s.push imm) := rfl

theorem exec_pop (s : State) : exec .pop s =
    s.perform .pop (fun s => raiseIf (s.sp < 0) .stackUnderflow s.sp >>= fun _ => .ok (s.setSp (s.sp - 1))) := rfl

theorem exec_add (s : State) :
    exec .add s = s.perform .add (fun s => s.binop .add noCheck (fun left right => left + right)) := rfl

theorem exec_sub (s : State) :
    exec .sub s = s.perform .sub (fun s => s.binop .sub noCheck (fun left right => left - right)) := rfl

theorem exec_mul (s : State) :
    exec .mul s = s.perform .mul (fun s => s.binop .mul noCheck (fun left right => left * right)) := rfl

theorem exec_div (s : State) : exec .div s = s.perform .div (fun s => s.binop .div zeroDivisor tdiv) := rfl

theorem exec_slt (s : State) : exec .slt s = s.perform .slt (fun s => s.compareTopTwo) := rfl

theorem exec_mov (rs rd : Int) (s : State) : exec (.mov rs rd) s = s.perform .mov (fun s =>
    s.regOperand rs >>= fun src => s.regOperand rd >>= fun dst => .ok (s.setReg dst (s.reg src))) := rfl

theorem exec_set (r imm : Int) (s : State) : exec (.set r imm) s = s.perform .set (fun s =>
    s.regOperand r >>= fun dst => .ok (s.setReg dst imm)) := rfl

theorem exec_log (r : Int) (s : State) : exec (.log r) s = s.perform .log (fun s =>
    s.regOperand r >>= fun src => .ok (s.emit (.log (s.reg src)))) := rfl

theorem exec_ifEq (r imm tgt : Int) (s : State) : exec (.ifEq r imm tgt) s = s.perform .ifEq (fun s =>
    s.regOperand r >>= fun src => s.branch (s.reg src == imm) tgt) := rfl

theorem exec_ifNe (r imm tgt : Int) (s : State) : exec (.ifNe r imm tgt) s = s.perform .ifNe (fun s =>
    s.regOperand r >>= fun src => s.branch (s.reg src != imm) tgt) := rfl

theorem exec_gld (r : Int) (s : State) : exec (.gld r) s = s.perform .gld (fun s =>
    s.regOperand r >>= fun src => s.push (s.reg src)) := rfl

theorem exec_gpt (r : Int) (s : State) : exec (.gpt r) s = s.perform .gpt (fun s =>
    s.regOperand r >>= fun dst => raiseIf (s.sp < 0) .stackUnderflow s.sp >>= fun _ =>
      s.stackCell s.sp >>= fun v => .ok (s.setReg dst v)) := rfl

theorem exec_nop (s : State) : exec .nop s = s.perform .nop (fun s => .ok (s.emit .nop)) := rfl

/-- The writes of a completed instruction that every one of them makes: `branch_taken` cleared and IP moved on. -/
abbrev State.advanced (s : State) (n : Int) : State :=
  { s with regs := { s.regs with ip := s.pc + n }, branchTaken := false }

/-- `t` is `s` after instruction `i` completed: the conditions under which it completes, and every write it makes. -/
def Completed (s t : State) : Instr → Prop
  | .hlt => t = { s.advanced 1 with run := .halted, haltReason := .hlt, out := s.out ++ [.finished] }
  | .nop => t = { s.advanced 1 with out := s.out ++ [.nop] }
  | .psh v => -1 ≤ s.sp ∧ s.sp < (s.cfg.stackCap : Int) - 1 ∧
      t = { s with
        stack := s.stack.write (s.sp + 1).toNat v
        regs := { s.regs with sp := s.sp + 1, ip := s.pc + 2 }
        branchTaken := false }
  | .pop => 0 ≤ s.sp ∧ t = { s with regs := { s.regs with sp := s.sp - 1, ip := s.pc + 1 }, branchTaken := false }
  | .add => ArithCompleted s t .add (fun left right => left + right)
  | .sub => ArithCompleted s t .sub (fun left right => left - right)
  | .mul => ArithCompleted s t .mul (fun left right => left * right)
  | .div => ArithCompleted s t .div tdiv
  | .slt => ∃ left right, TopTwo s left right ∧ t = { s with
      stack := s.stack.write (s.sp - 1).toNat (b2i (left < right))
      regs := { s.regs with sp := s.sp - 1, ip := s.pc + 1 }
      branchTaken := false }
  | .mov rs rd => ∃ src dst, NamesData s.cfg rs src ∧ NamesData s.cfg rd dst ∧
      t = (s.setReg dst (s.reg src)).advanced 3
  | .set v imm => ∃ dst, NamesData s.cfg v dst ∧ t = (s.setReg dst imm).advanced 3
  | .log v => ∃ src, NamesData s.cfg v src ∧ t = { s.advanced 2 with out := s.out ++ [.log (s.reg src)] }
  | .ifEq v imm tgt => ∃ src, NamesData s.cfg v src ∧ BranchCompleted s t (s.reg src == imm) tgt
  | .ifNe v imm tgt => ∃ src, NamesData s.cfg v src ∧ BranchCompleted s t (s.reg src != imm) tgt
  | .gld v => ∃ src, NamesData s.cfg v src ∧ -1 ≤ s.sp ∧ s.sp < (s.cfg.stackCap : Int) - 1 ∧
      t = { s with
        stack := s.stack.write (s.sp + 1).toNat (s.reg src)
        regs := { s.regs with sp := s.sp + 1, ip := s.pc + 2 }
        branchTaken := false }
  | .gpt v => ∃ dst top, NamesData s.cfg v dst ∧ 0 ≤ s.sp ∧ s.sp < s.cfg.stackCap ∧
      s.stack.read s.sp.toNat = some top ∧ t = (s.setReg dst top).advanced 2
where
  /-- The completed arithmetic instruction (42_arith.md R85). -/
  ArithCompleted (s t : State) (op : ArithOp) (f : Int → Int → Int) : Prop :=
    ∃ left right, TopTwo s left right ∧ ¬ Overflows s.cfg (f left right) ∧ (op = .div → right ≠ 0) ∧
      t = { s with
        stack := s.stack.write (s.sp - 1).toNat (wrap s.cfg.xlen (f left right))
        regs := { s.regs with
          sp := s.sp - 1, ip := s.pc + 1, ex := drawn s.cfg s.draws, exa := drawn s.cfg (s.draws + 1) }
        branchTaken := false
        draws := s.draws + 2
        out := s.out ++ [.arith op left right (wrap s.cfg.xlen (f left right))] }
  /-- The completed branch (44_branch.md R100). -/
  BranchCompleted (s t : State) (cond : Bool) (tgt : Int) : Prop :=
    (cond = true ∧ 0 ≤ tgt ∧ t = { s with regs := { s.regs with ip := tgt }, branchTaken := true }) ∨
      (cond = false ∧ t = s.advanced 4)

/-- A data register is neither IP nor SP. -/
theorem NamesData.ne_control {c : Config} {v : Int} {r : RegName} (h : NamesData c v r) : r ≠ .ip ∧ r ≠ .sp := by
  obtain ⟨-, -, hc⟩ := h
  constructor <;> rintro rfl <;> cases hc

/-- Advancing after a register write is the same as writing after the advance would be: IP is not the register. -/
theorem advance_startCycle_setReg (s : State) (r : RegName) (v : Int) (n : Nat) (h : r ≠ .ip) :
    (s.startCycle.setReg r v).advance n = (s.setReg r v).advanced (1 + n) := by
  cases r <;> first | exact absurd rfl h | skip
  all_goals simp [State.advance, State.advanced, State.setReg, State.startCycle, State.setPc, State.pc, RegBank.set]; omega

theorem arith_cases {s t : State} {m : Mnemonic} {op : ArithOp} {check : Int → Int → Attempt Unit}
    {f : Int → Int → Int} (hm : m.arity = 0)
    (hc : ∀ left right, check left right = .ok () → op = .div → right ≠ 0)
    (hr : ∀ left right c d, check left right = .error (.raise c d) → m ∈ raisers c)
    (hu : m ∈ raisers .stackUnderflow) (ho : m ∈ raisers .arithmeticOverflow)
    (h : s.perform m (fun s => s.binop op check f) = .next t) :
    (∃ c op d, s.progCell s.pc = some op ∧ m ∈ raisers c ∧ t = faultState s c op d) ∨
      Completed.ArithCompleted s t op f := by
  rcases perform_eq_next.mp h with ⟨u, hu', rfl⟩ | ⟨c, d, o, he, hp, rfl⟩
  · obtain ⟨left, right, ht, hk, hov, rfl⟩ := binop_eq_ok.mp hu'
    refine .inr ⟨left, right, ht, hov, hc left right hk, ?_⟩
    simp [State.advance, hm, State.startCycle, State.setPc, State.pc, State.sp]
  · refine .inl ⟨c, o, d, hp, ?_, rfl⟩
    rcases binop_eq_raise he with ⟨-, rfl, -⟩ | ⟨left, right, -, hk | ⟨-, rfl, -⟩⟩
    · exact hu
    · exact hr left right c d hk
    · exact ho

theorem branch_cases {s t : State} {m : Mnemonic} {v tgt : Int} {cond : State → RegName → Bool} (hm : m.arity = 3)
    (hs : ∀ s r, cond (State.startCycle s) r = cond s r)
    (h1 : m ∈ raisers .registerIndexOutOfRange) (h2 : m ∈ raisers .controlRegisterOperand)
    (h3 : m ∈ raisers .branchTargetOutOfRange)
    (h : s.perform m (fun s => s.regOperand v >>= fun src => s.branch (cond s src) tgt) = .next t) :
    (∃ c op d, s.progCell s.pc = some op ∧ m ∈ raisers c ∧ t = faultState s c op d) ∨
      ∃ src, NamesData s.cfg v src ∧ Completed.BranchCompleted s t (cond s src) tgt := by
  rcases perform_eq_next.mp h with ⟨u, hu, rfl⟩ | ⟨c, d, o, he, hp, rfl⟩
  · obtain ⟨r, hr, hb⟩ := attempt_bind_eq_ok.mp hu
    refine .inr ⟨r, regOperand_eq_ok.mp hr, ?_⟩
    rw [hs] at hb
    rcases branch_eq_ok.mp hb with ⟨hc, ht, rfl⟩ | ⟨hc, rfl⟩
    · exact .inl ⟨hc, ht, by simp [State.advance]; rfl⟩
    · refine .inr ⟨hc, ?_⟩
      simp [State.advance, hm, State.startCycle, State.setPc, State.pc]
      omega
  · refine .inl ⟨c, o, d, hp, ?_, rfl⟩
    rcases attempt_bind_eq_error.mp he with hr | ⟨r, -, hb⟩
    · rcases regOperand_eq_error hr with h | h <;> cases h
      · exact h1
      · exact h2
    · obtain ⟨-, -, hb⟩ := branch_eq_error.mp hb
      cases hb; exact h3

/-- Everything `exec` can answer as a next state: a fault of the instruction's own causes was taken, or the instruction
completed. -/
theorem exec_cases {i : Instr} {s t : State} (h : exec i s = .next t) :
    (∃ c op d, s.progCell s.pc = some op ∧ i.mnemonic ∈ raisers c ∧ t = faultState s c op d) ∨ Completed s t i := by
  cases i with
  | hlt =>
    rw [exec_hlt] at h
    rcases perform_eq_next.mp h with ⟨u, hu, rfl⟩ | ⟨_, _, _, he, -, -⟩
    · cases hu; exact .inr (by simp [Completed, State.advance, State.startCycle, State.halt, State.emit, State.setPc, State.pc,
        Mnemonic.arity, Mnemonic.format, Format.arity])
    · cases he
  | nop =>
    rw [exec_nop] at h
    rcases perform_eq_next.mp h with ⟨u, hu, rfl⟩ | ⟨_, _, _, he, -, -⟩
    · cases hu; exact .inr (by simp [Completed, State.advance, State.startCycle, State.emit, State.setPc, State.pc,
        Mnemonic.arity, Mnemonic.format, Format.arity])
    · cases he
  | psh v =>
    rw [exec_psh] at h
    rcases perform_eq_next.mp h with ⟨u, hu, rfl⟩ | ⟨c, d, o, he, hp, rfl⟩
    · obtain ⟨h0, h1, rfl⟩ := push_eq_ok.mp hu
      refine .inr ⟨h0, h1, ?_⟩
      simp [State.advance, State.startCycle, State.setPc, State.pc, State.sp,
        Mnemonic.arity, Mnemonic.format, Format.arity]
      omega
    · obtain ⟨-, rfl, -⟩ := push_eq_raise he
      exact .inl ⟨_, o, d, hp, by simp [raisers, Instr.mnemonic], rfl⟩
  | pop =>
    rw [exec_pop] at h
    rcases perform_eq_next.mp h with ⟨u, hu, rfl⟩ | ⟨c, d, o, he, hp, rfl⟩
    · obtain ⟨_, h0, hu⟩ := attempt_bind_eq_ok.mp hu
      cases hu
      have h0 := (raiseIf_eq_ok _ _ _ _).mp h0
      refine .inr ⟨by simp only [State.startCycle_sp] at h0; omega, ?_⟩
      simp [State.advance, State.startCycle, State.setPc, State.setSp, State.pc, State.sp,
        Mnemonic.arity, Mnemonic.format, Format.arity]
    · rcases attempt_bind_eq_error.mp he with he | ⟨_, _, he⟩
      · obtain ⟨-, he⟩ := (raiseIf_eq_error _ _ _ _).mp he
        cases he; exact .inl ⟨_, o, _, hp, by simp [raisers, Instr.mnemonic], rfl⟩
      · cases he
  | add =>
    rw [exec_add] at h
    exact arith_cases rfl (fun _ _ _ h => by cases h) (fun _ _ _ _ h => by cases h) (by decide) (by decide) h
  | sub =>
    rw [exec_sub] at h
    exact arith_cases rfl (fun _ _ _ h => by cases h) (fun _ _ _ _ h => by cases h) (by decide) (by decide) h
  | mul =>
    rw [exec_mul] at h
    exact arith_cases rfl (fun _ _ _ h => by cases h) (fun _ _ _ _ h => by cases h) (by decide) (by decide) h
  | div =>
    rw [exec_div] at h
    refine arith_cases rfl (fun l r h _ => (raiseIf_eq_ok _ _ _ _).mp h) (fun l r c d h => ?_) (by decide) (by decide) h
    obtain ⟨-, h⟩ := (raiseIf_eq_error _ _ _ _).mp h
    cases h; decide
  | slt =>
    rw [exec_slt] at h
    rcases perform_eq_next.mp h with ⟨u, hu, rfl⟩ | ⟨c, d, o, he, hp, rfl⟩
    · obtain ⟨left, right, ht, rfl⟩ := compareTopTwo_eq_ok.mp hu
      refine .inr ⟨left, right, ht, ?_⟩
      simp [State.advance, State.startCycle, State.setPc, State.pc, State.sp,
        Mnemonic.arity, Mnemonic.format, Format.arity]
    · obtain ⟨-, rfl, -⟩ := compareTopTwo_eq_raise.mp he
      exact .inl ⟨_, o, d, hp, by simp [raisers, Instr.mnemonic], rfl⟩
  | mov rs rd =>
    rw [exec_mov] at h
    rcases perform_eq_next.mp h with ⟨u, hu, rfl⟩ | ⟨c, d, o, he, hp, rfl⟩
    · obtain ⟨src, hs, hu⟩ := attempt_bind_eq_ok.mp hu
      obtain ⟨dst, hd, hu⟩ := attempt_bind_eq_ok.mp hu
      cases hu
      have hd := regOperand_eq_ok.mp hd
      exact .inr ⟨src, dst, regOperand_eq_ok.mp hs, hd, advance_startCycle_setReg s dst _ 2 (NamesData.ne_control hd).1⟩
    · rcases attempt_bind_eq_error.mp he with he | ⟨_, -, he⟩
      · rcases regOperand_eq_error he with h | h <;> cases h <;> exact .inl ⟨_, o, _, hp, by simp [raisers, Instr.mnemonic], rfl⟩
      · rcases attempt_bind_eq_error.mp he with he | ⟨_, -, he⟩
        · rcases regOperand_eq_error he with h | h <;> cases h <;> exact .inl ⟨_, o, _, hp, by simp [raisers, Instr.mnemonic], rfl⟩
        · cases he
  | set v imm =>
    rw [exec_set] at h
    rcases perform_eq_next.mp h with ⟨u, hu, rfl⟩ | ⟨c, d, o, he, hp, rfl⟩
    · obtain ⟨dst, hd, hu⟩ := attempt_bind_eq_ok.mp hu
      cases hu
      have hd := regOperand_eq_ok.mp hd
      exact .inr ⟨dst, hd, advance_startCycle_setReg s dst _ 2 (NamesData.ne_control hd).1⟩
    · rcases attempt_bind_eq_error.mp he with he | ⟨_, -, he⟩
      · rcases regOperand_eq_error he with h | h <;> cases h <;> exact .inl ⟨_, o, _, hp, by simp [raisers, Instr.mnemonic], rfl⟩
      · cases he
  | log v =>
    rw [exec_log] at h
    rcases perform_eq_next.mp h with ⟨u, hu, rfl⟩ | ⟨c, d, o, he, hp, rfl⟩
    · obtain ⟨src, hs, hu⟩ := attempt_bind_eq_ok.mp hu
      cases hu
      refine .inr ⟨src, regOperand_eq_ok.mp hs, ?_⟩
      simp [State.advance, State.startCycle, State.setPc, State.emit, State.reg, State.pc,
        Mnemonic.arity, Mnemonic.format, Format.arity]
      omega
    · rcases attempt_bind_eq_error.mp he with he | ⟨_, -, he⟩
      · rcases regOperand_eq_error he with h | h <;> cases h <;> exact .inl ⟨_, o, _, hp, by simp [raisers, Instr.mnemonic], rfl⟩
      · cases he
  | ifEq v imm tgt =>
    rw [exec_ifEq] at h
    exact branch_cases (m := .ifEq) (cond := fun s r => s.reg r == imm) rfl (fun _ _ => rfl)
      (by decide) (by decide) (by decide) h
  | ifNe v imm tgt =>
    rw [exec_ifNe] at h
    exact branch_cases (m := .ifNe) (cond := fun s r => s.reg r != imm) rfl (fun _ _ => rfl)
      (by decide) (by decide) (by decide) h
  | gld v =>
    rw [exec_gld] at h
    rcases perform_eq_next.mp h with ⟨u, hu, rfl⟩ | ⟨c, d, o, he, hp, rfl⟩
    · obtain ⟨src, hs, hu⟩ := attempt_bind_eq_ok.mp hu
      obtain ⟨h0, h1, rfl⟩ := push_eq_ok.mp hu
      refine .inr ⟨src, regOperand_eq_ok.mp hs, h0, h1, ?_⟩
      simp [State.advance, State.startCycle, State.setPc, State.pc, State.sp, State.reg,
        Mnemonic.arity, Mnemonic.format, Format.arity]
      omega
    · rcases attempt_bind_eq_error.mp he with he | ⟨_, -, he⟩
      · rcases regOperand_eq_error he with h | h <;> cases h <;> exact .inl ⟨_, o, _, hp, by simp [raisers, Instr.mnemonic], rfl⟩
      · obtain ⟨-, rfl, -⟩ := push_eq_raise he
        exact .inl ⟨_, o, d, hp, by simp [raisers, Instr.mnemonic], rfl⟩
  | gpt v =>
    rw [exec_gpt] at h
    rcases perform_eq_next.mp h with ⟨u, hu, rfl⟩ | ⟨c, d, o, he, hp, rfl⟩
    · obtain ⟨dst, hd, hu⟩ := attempt_bind_eq_ok.mp hu
      obtain ⟨_, h0, hu⟩ := attempt_bind_eq_ok.mp hu
      obtain ⟨top, htop, hu⟩ := attempt_bind_eq_ok.mp hu
      cases hu
      have hd := regOperand_eq_ok.mp hd
      obtain ⟨h1, h2, h3⟩ := stackCell_eq_ok.mp htop
      exact .inr ⟨dst, top, hd, h1, h2, h3, advance_startCycle_setReg s dst _ 1 (NamesData.ne_control hd).1⟩
    · rcases attempt_bind_eq_error.mp he with he | ⟨_, -, he⟩
      · rcases regOperand_eq_error he with h | h <;> cases h <;> exact .inl ⟨_, o, _, hp, by simp [raisers, Instr.mnemonic], rfl⟩
      · rcases attempt_bind_eq_error.mp he with he | ⟨_, -, he⟩
        · obtain ⟨-, he⟩ := (raiseIf_eq_error _ _ _ _).mp he
          cases he; exact .inl ⟨_, o, _, hp, by simp [raisers, Instr.mnemonic], rfl⟩
        · rcases attempt_bind_eq_error.mp he with he | ⟨_, -, he⟩
          · obtain ⟨f, hf⟩ := stackCell_eq_error he; cases hf
          · cases he

end Sys2Proof.Machine
end

