-- ==== Sys2Proof/Laws/PerInstr.lean ====
section
/-! SUPPORT. Facts of the syntax, proved once for each instruction. -/

namespace Sys2Proof.Laws.EncodedLength

/-- An instruction is 1 + arity cells, and its first cell is its opcode number (30_encoding.md R45, R46). -/
def Statement (i : Instr) : Prop :=
  ∀ c : Config, (encode c i).length = 1 + i.mnemonic.arity ∧ (encode c i).head? = some (c.opc.get i.mnemonic)

theorem hlt : Statement .hlt := fun _ => ⟨rfl, rfl⟩
theorem psh (imm : Int) : Statement (.psh imm) := fun _ => ⟨rfl, rfl⟩
theorem pop : Statement .pop := fun _ => ⟨rfl, rfl⟩
theorem add : Statement .add := fun _ => ⟨rfl, rfl⟩
theorem mul : Statement .mul := fun _ => ⟨rfl, rfl⟩
theorem div : Statement .div := fun _ => ⟨rfl, rfl⟩
theorem sub : Statement .sub := fun _ => ⟨rfl, rfl⟩
theorem slt : Statement .slt := fun _ => ⟨rfl, rfl⟩
theorem mov (rs rd : Int) : Statement (.mov rs rd) := fun _ => ⟨rfl, rfl⟩
theorem set (r imm : Int) : Statement (.set r imm) := fun _ => ⟨rfl, rfl⟩
theorem log (r : Int) : Statement (.log r) := fun _ => ⟨rfl, rfl⟩
theorem ifEq (r imm tgt : Int) : Statement (.ifEq r imm tgt) := fun _ => ⟨rfl, rfl⟩
theorem ifNe (r imm tgt : Int) : Statement (.ifNe r imm tgt) := fun _ => ⟨rfl, rfl⟩
theorem gld (r : Int) : Statement (.gld r) := fun _ => ⟨rfl, rfl⟩
theorem gpt (r : Int) : Statement (.gpt r) := fun _ => ⟨rfl, rfl⟩
theorem nop : Statement .nop := fun _ => ⟨rfl, rfl⟩

end Sys2Proof.Laws.EncodedLength
end

