-- ==== Sys2Proof/Tests/Slice0.lean ====
section
/-! SUPPORT. Tests and witnesses. Every expected result comes from spec/: the encodings of 30_encoding.md R46, R48, the
vectors of 95_test_vectors.md (named by their ids), or the rule named. The witnesses show, for each obligation with
hypotheses, a state that meets them. -/

namespace Sys2Proof.Machine.Tests

/-- A program under the default parameters, as reset is released. -/
def boot (cells : List Int) : State := State.loaded Config.default cells

/-- The state with those live stack cells, bottom to top. -/
def withStack (cells : List Int) (s : State) : State :=
  { s with stack := Memory.writeList [] 0 cells, regs := { s.regs with sp := (cells.length : Int) - 1 } }

/-- The state with the register `r` holding `v`. -/
def withReg (r : RegName) (v : Int) (s : State) : State := s.setReg r v

/-- The state with a two-cell stack capacity and OVERFLOW = fault, UNKNOWN_OPCODE = skip. -/
def strict (s : State) : State :=
  { s with cfg := { s.cfg with stackCap := 2, overflow := .fault, unknownOpcode := .skip } }

/-- One step answers a next state with the property. -/
def after (s : State) (p : State → Bool) : Bool :=
  match step s with
  | .next t => p t
  | .fault _ | .refused _ => false

/-- The cells stand at IP. -/
def standsAt (s : State) (cells : List Int) : Bool :=
  (List.range cells.length).all (fun k => s.progCell (s.pc + k) == cells[k]?)

theorem standsAt_spec {s : State} {cells : List Int} (h : standsAt s cells = true) :
    ∀ (k : Nat) (v : Int), cells[k]? = some v → s.progCell (s.pc + k) = some v := by
  intro k v hk
  obtain ⟨hl, -⟩ := List.getElem?_eq_some_iff.mp hk
  have := List.all_eq_true.mp h k (List.mem_range.mpr hl)
  rw [beq_iff_eq] at this
  rw [this, hk]

/-! ### Decoding -/

/-- Every instruction from its cells (30_encoding.md R46, R48). -/
theorem test_decode_z :
    decodeCells Config.default [0] = .instr .hlt ∧ decodeCells Config.default [2] = .instr .pop ∧
    decodeCells Config.default [3] = .instr .add ∧ decodeCells Config.default [4] = .instr .mul ∧
    decodeCells Config.default [5] = .instr .div ∧ decodeCells Config.default [6] = .instr .sub ∧
    decodeCells Config.default [7] = .instr .slt ∧ decodeCells Config.default [15] = .instr .nop := by decide

theorem test_decode_one_operand :
    decodeCells Config.default [1, -2147483648] = .instr (.psh (-2147483648)) ∧
    decodeCells Config.default [10, 3] = .instr (.log 3) ∧ decodeCells Config.default [13, 0] = .instr (.gld 0) ∧
    decodeCells Config.default [14, 8] = .instr (.gpt 8) := by decide

theorem test_decode_more_operands :
    decodeCells Config.default [8, 7, 8] = .instr (.mov 7 8) ∧
    decodeCells Config.default [9, 0, 5] = .instr (.set 0 5) ∧
    decodeCells Config.default [11, 0, 5, 20] = .instr (.ifEq 0 5 20) ∧
    decodeCells Config.default [12, 0, 0, 3] = .instr (.ifNe 0 0 3) := by decide

/-- Y10, Y11, Y6 and the source's 99. -/
theorem test_decode_rejects :
    decodeCells Config.default [11, 0, 5] = .truncated 1 ∧ decodeCells Config.default [11] = .truncated 3 ∧
    decodeCells Config.default [-1] = .unknownOpcode (-1) ∧ decodeCells Config.default [99, 0] = .unknownOpcode 99 ∧
    decodeCells Config.default [] = .absent 0 := by decide

/-- Words of spec/opcode_table.json with their operand cells above, cell 1 in bits 63..32, cell 2 in bits 95..64, cell 3
in bits 127..96. -/
theorem test_decode_words :
    decodeTableWord 32 0x00000000 = some .hlt ∧ decodeTableWord 32 0x0000000F = some .nop ∧
    decodeTableWord 64 0xFFFFFFFE_00000001 = some (.psh (-2)) ∧
    decodeTableWord 96 0x00000001_00000000_00000008 = some (.mov 0 1) ∧
    decodeTableWord 96 0xFFFFFFFF_00000009_00000009 = some (.set 9 (-1)) ∧
    decodeTableWord 128 0x00000003_00000000_00000002_0000000C = some (.ifNe 2 0 3) := by decide

/-- An operand word of zeros above the bits given; an opcode cell outside the map. -/
theorem test_decode_short_words :
    decodeTableWord 32 0x0000000B = some (.ifEq 0 0 0) ∧ decodeTableWord 32 0x00000010 = none ∧
    decodeTableWord 32 0x80000001 = none := by decide

theorem test_encode :
    encode Config.default (.ifEq 0 5 10) = [11, 0, 5, 10] ∧
    encodeWord Config.default (.set 9 (-1)) = 0xFFFFFFFF_00000009_00000009 := by decide

/-! ### Well-formedness: a term that fails each check -/

theorem test_wellFormed_accepts :
    (Instr.mov 0 9).wellFormed Config.default = true ∧ (Instr.psh 2147483647).wellFormed Config.default = true ∧
    (Instr.ifNe 7 (-2147483648) (-1)).wellFormed Config.default = true := by decide

theorem test_wellFormed_refuses_operand_outside_cell :
    (Instr.psh 2147483648).wellFormed Config.default = false ∧
    (Instr.set 0 (-2147483649)).wellFormed Config.default = false ∧
    (Instr.ifEq 0 0 2147483648).operandsFit Config.default = false := by decide

theorem test_wellFormed_refuses_bad_register :
    (Instr.log 12).wellFormed Config.default = false ∧ (Instr.gld (-1)).wellFormed Config.default = false ∧
    (Instr.mov 0 10).wellFormed Config.default = false ∧ (Instr.gpt 11).wellFormed Config.default = false := by decide

/-! ### Reset and the placing of an instruction -/

/-- 10_state.md R25, in the order of `RegBank`'s fields. -/
theorem test_reset :
    State.reset.regs = ⟨0, 0, 0, 0, 0, 0, 0, 0, 0, 0, 0, -1⟩ ∧ State.reset.run = .running ∧ State.reset.out = [] ∧
    State.reset.stack.wf ∧ State.reset.prog.wf := by decide

/-- The placed word is the next instruction run: HLT, and GLD A with a zero operand cell. -/
theorem test_withFetchWord :
    after (State.reset.withFetchWord 32 0) (fun t => decide (t.haltReason = .hlt)) = true ∧
    after (State.reset.withFetchWord 32 13) (fun t => decide (t.sp = 0 ∧ t.pc = 2)) = true := by decide

/-! ### The cycle -/

/-- Y1, and a target past `count` (B6's second step). -/
theorem test_exhaustion :
    after (boot []) (fun t => decide (t.haltReason = .exhausted ∧ t.pc = 0 ∧ t.out = [])) = true ∧
    after ((boot [0]).setPc 1000) (fun t => decide (t.haltReason = .exhausted ∧ t.pc = 1000)) = true := by decide

/-- Y7 and Y8. -/
theorem test_unknown_opcode :
    after (boot [16]) (fun t => decide (t.fault = some ⟨.unknownOpcode, 0, 16, 16⟩ ∧ t.pc = 0)) = true ∧
    after (strict (boot [16])) (fun t => decide (t.out = [.unknownOpcode 0 16] ∧ t.pc = 1 ∧ t.run = .running)) = true := by
  decide

/-- Y12: truncation comes before the register check. -/
theorem test_truncated :
    after (boot [8, 12]) (fun t => decide (t.fault = some ⟨.truncatedInstruction, 0, 8, 1⟩)) = true := by decide

/-- Y4: HLT at the last cell. -/
theorem test_hlt : after (boot [0]) (fun t => decide (t.haltReason = .hlt ∧ t.pc = 1 ∧ t.out = [.finished])) = true := by
  decide

/-- Y5. -/
theorem test_nop : after (boot [15]) (fun t => decide (t.pc = 1 ∧ t.out = [.nop] ∧ t.run = .running)) = true := by decide

/-! ### Stack -/

/-- S2. -/
theorem test_psh : after (withStack [3] (boot [1, -2147483648]))
    (fun t => decide (t.sp = 1 ∧ t.stack = [(0, 3), (1, -2147483648)] ∧ t.pc = 2)) = true := by decide

/-- S3, with two cells of stack. -/
theorem test_psh_full : after (strict (withStack [3, 4] (boot [1, 1])))
    (fun t => decide (t.fault = some ⟨.stackOverflow, 0, 1, 1⟩ ∧ t.sp = 1)) = true := by decide

/-- S5: the popped cell keeps its value. -/
theorem test_pop : after (withStack [10, 20] (boot [2]))
    (fun t => decide (t.sp = 0 ∧ t.stack.read 1 = some 20 ∧ t.pc = 1)) = true := by decide

/-- S7. -/
theorem test_pop_empty : after (boot [2])
    (fun t => decide (t.fault = some ⟨.stackUnderflow, 0, 2, -1⟩ ∧ t.sp = -1)) = true := by decide

/-! ### Arithmetic -/

/-- A2, both policies. -/
theorem test_add :
    after (withStack [2147483647, 1] (boot [3])) (fun t => decide (t.stack.read 0 = some (-2147483648) ∧ t.sp = 0 ∧
      t.out = [.arith .add 2147483647 1 (-2147483648)])) = true ∧
    after (strict (withStack [2147483647, 1] (boot [3])))
      (fun t => decide (t.fault = some ⟨.arithmeticOverflow, 0, 3, -2147483648⟩)) = true := by decide

/-- A24 and A4: the cell below is untouched. -/
theorem test_add_stack :
    after (withStack [5] (boot [3])) (fun t => decide (t.fault = some ⟨.stackUnderflow, 0, 3, 0⟩)) = true ∧
    after (withStack [9, 5, -5] (boot [3])) (fun t => decide (t.stack = [(0, 9), (1, 0), (2, -5)])) = true := by decide

/-- A5, A8. -/
theorem test_sub :
    after (withStack [10, 3] (boot [6])) (fun t => decide (t.stack.read 0 = some 7)) = true ∧
    after (withStack [0, -2147483648] (boot [6])) (fun t => decide (t.stack.read 0 = some (-2147483648))) = true := by
  decide

/-- A10, A12, A14. -/
theorem test_mul :
    after (withStack [-6, 7] (boot [4])) (fun t => decide (t.stack.read 0 = some (-42))) = true ∧
    after (withStack [65536, 32768] (boot [4])) (fun t => decide (t.stack.read 0 = some (-2147483648))) = true ∧
    after (withStack [2147483647, 2147483647] (boot [4])) (fun t => decide (t.stack.read 0 = some 1)) = true := by
  decide

/-- A16, A17, A23. -/
theorem test_div :
    after (withStack [-7, 2] (boot [5])) (fun t => decide (t.stack.read 0 = some (-3))) = true ∧
    after (withStack [7, -2] (boot [5])) (fun t => decide (t.stack.read 0 = some (-3))) = true ∧
    after (withStack [-2147483648, -1] (boot [5])) (fun t => decide (t.stack.read 0 = some (-2147483648))) = true := by
  decide

/-- A21, A26. -/
theorem test_div_faults :
    after (withStack [10, 0] (boot [5])) (fun t => decide (t.fault = some ⟨.divisionByZero, 0, 5, 10⟩ ∧
      t.stack = [(0, 10), (1, 0)] ∧ t.sp = 1 ∧ t.out = [.fault .divisionByZero 0 5 10])) = true ∧
    after (withStack [0] (boot [5])) (fun t => decide (t.fault = some ⟨.stackUnderflow, 0, 5, 0⟩)) = true := by decide

/-- A30, A32, A29. -/
theorem test_slt :
    after (withStack [-1, 0] (boot [7])) (fun t => decide (t.stack.read 0 = some 1 ∧ t.out = [])) = true ∧
    after (withStack [2147483647, -2147483648] (boot [7])) (fun t => decide (t.stack.read 0 = some 0)) = true ∧
    after (withStack [4, 4] (boot [7])) (fun t => decide (t.stack.read 0 = some 0)) = true := by decide

/-- A34: EX and EXA unchanged. -/
theorem test_slt_scratch :
    after (withReg .ex 11 (withReg .exa 22 (withStack [1, 1] (boot [7]))))
      (fun t => decide (t.reg .ex = 11 ∧ t.reg .exa = 22)) = true := by decide

/-! ### Registers -/

/-- G1, G3. -/
theorem test_mov :
    after (withReg .a 5 (boot [8, 0, 1])) (fun t => decide (t.reg .b = 5 ∧ t.reg .a = 5 ∧ t.pc = 3)) = true ∧
    after (withReg .j (-9) (boot [8, 7, 8])) (fun t => decide (t.reg .ex = -9)) = true := by decide

/-- G8, G9, G7: `rs` is checked first. -/
theorem test_mov_faults :
    after (boot [8, 12, 11]) (fun t => decide (t.fault = some ⟨.registerIndexOutOfRange, 0, 8, 12⟩)) = true ∧
    after (boot [8, 11, 12]) (fun t => decide (t.fault = some ⟨.controlRegisterOperand, 0, 8, 11⟩)) = true ∧
    after (boot [8, 0, 10]) (fun t => decide (t.fault = some ⟨.controlRegisterOperand, 0, 8, 10⟩)) = true := by decide

/-- G10, G12. -/
theorem test_set :
    after (boot [9, 0, 5]) (fun t => decide (t.reg .a = 5 ∧ t.pc = 3)) = true ∧
    after (boot [9, 10, 0]) (fun t => decide (t.fault = some ⟨.controlRegisterOperand, 0, 9, 10⟩ ∧ t.pc = 0)) = true := by
  decide

/-- G15, G16. -/
theorem test_log :
    after (withReg .d (-2147483648) (boot [10, 3])) (fun t => decide (t.out = [.log (-2147483648)] ∧ t.pc = 2)) = true ∧
    after (boot [10, 11]) (fun t => decide (t.out = [.fault .controlRegisterOperand 0 10 11])) = true := by decide

/-! ### Branches -/

/-- B1, B2. -/
theorem test_if :
    after (withReg .a 5 (boot [11, 0, 5, 20])) (fun t => decide (t.pc = 20)) = true ∧
    after (withReg .a 4 (boot [11, 0, 5, 20])) (fun t => decide (t.pc = 4)) = true := by decide

/-- B8, B9, B11. -/
theorem test_if_target :
    after (boot [11, 0, 0, -1]) (fun t => decide (t.fault = some ⟨.branchTargetOutOfRange, 0, 11, -1⟩ ∧ t.pc = 0)) = true ∧
    after (withReg .a 1 (boot [11, 0, 0, -1])) (fun t => decide (t.pc = 4 ∧ t.fault = none)) = true ∧
    after (boot [11, 12, 0, -1]) (fun t => decide (t.fault = some ⟨.registerIndexOutOfRange, 0, 11, 12⟩)) = true := by
  decide

/-- B3, B4. -/
theorem test_ifn :
    after (withReg .a 5 (boot [12, 0, 5, 20])) (fun t => decide (t.pc = 4)) = true ∧
    after (withReg .a 4 (boot [12, 0, 5, 20])) (fun t => decide (t.pc = 20)) = true := by decide

/-! ### Register and stack -/

/-- T1, and T3 with two cells of stack: the register check comes before the stack check. -/
theorem test_gld :
    after (withReg .a 3 (boot [13, 0])) (fun t => decide (t.sp = 0 ∧ t.stack = [(0, 3)] ∧ t.reg .a = 3 ∧ t.pc = 2)) = true ∧
    after (strict (withStack [1, 2] (boot [13, 12])))
      (fun t => decide (t.fault = some ⟨.registerIndexOutOfRange, 0, 13, 12⟩)) = true := by decide

/-- T6, T7. -/
theorem test_gpt :
    after (withStack [7, 8] (boot [14, 8])) (fun t => decide (t.reg .ex = 8 ∧ t.sp = 1 ∧ t.stack = [(0, 7), (1, 8)])) = true ∧
    after (boot [14, 0]) (fun t => decide (t.fault = some ⟨.stackUnderflow, 0, 14, -1⟩ ∧ t.reg .a = 0)) = true := by decide

/-! ### Witnesses: states, operands and values that meet the hypotheses of each obligation -/

/-- A good running state with one cell of stack live and two cells of program. -/
theorem witness_Inv_running : (boot [1, 3]).Inv := by
  refine ⟨by decide, ⟨by decide, by decide, ?_⟩, fun r => by cases r <;> decide, by decide, by decide, by decide, ?_, ?_,
    by decide, by decide⟩
  · intro n hn
    have hn : n < 2 := hn
    interval_cases n
    · exact ⟨1, by decide, by decide⟩
    · exact ⟨3, by decide, by decide⟩
  · intro n v h; cases h
  · intro n h
    have h : (n : Int) ≤ -1 := h
    omega

/-- For EveryStepKeepsTheInvariant and GoodStateAlwaysSteps: a good state, and it steps. -/
theorem witness_EveryStepKeepsTheInvariant : ∃ s t : State, s.Inv ∧ step s = .next t ∧ t ≠ s :=
  ⟨boot [1, 3], _, witness_Inv_running, rfl, by decide⟩

/-- For ResetMeetsTheInvariant: one program, and the empty one. -/
theorem witness_ResetMeetsTheInvariant :
    Config.default.WF ∧ [8, 0, 1].length ≤ Config.default.progMax ∧ (∀ v ∈ [8, 0, (1 : Int)], InRange 32 v) ∧
    ([] : List Int).length ≤ Config.default.progMax := by decide

/-- For StepLeavesProgramAndParameters. -/
theorem witness_StepLeavesProgramAndParameters : ∃ t, step (boot [3]) = .next t := ⟨_, rfl⟩

/-- For StepRunsTheDecodedInstruction. -/
theorem witness_StepRunsTheDecodedInstruction :
    (boot [9, 9, -1]).run = .running ∧
    decode Config.default 3 (boot [9, 9, -1]).progCell 0 = .instr (.set 9 (-1)) := by decide

/-- For StepRunsAnEncodedInstruction and EncodedAs: all sixteen instructions, standing at IP in a running state. -/
theorem witness_EncodedAs :
    Config.default.WF ∧ ∀ i ∈ [Instr.hlt, .psh 3, .pop, .add, .mul, .div, .sub, .slt, .mov 0 1, .set 0 5, .log 0,
      .ifEq 0 5 20, .ifNe 0 0 3, .gld 0, .gpt 0, .nop],
      (boot (encode Config.default i)).run = .running ∧
      standsAt (boot (encode Config.default i)) (encode Config.default i) = true := by decide

/-- The hypothesis of EncodedAs in the form the statement has it, at IF. -/
theorem witness_EncodedAs_cells : ∀ (k : Nat) (v : Int), [11, 0, 5, (20 : Int)][k]? = some v →
    (boot [11, 0, 5, 20]).progCell ((boot [11, 0, 5, 20]).pc + k) = some v := standsAt_spec (by decide)

/-- For HaltedStateIsFrozen. -/
theorem witness_HaltedStateIsFrozen : ((boot [0]).halt .hlt).run = .halted := rfl

/-- For RunningOffTheEndHaltsExhausted: IP = count, and IP past it. -/
theorem witness_RunningOffTheEndHaltsExhausted :
    (boot []).run = .running ∧ ((boot []).count : Int) ≤ (boot []).pc ∧
    ((boot [0]).setPc 1000).run = .running ∧ (((boot [0]).setPc 1000).count : Int) ≤ ((boot [0]).setPc 1000).pc := by decide

/-- For UnknownOpcodeFollowsThePolicy: the first value above the map and the first below, under each policy. -/
theorem witness_UnknownOpcodeFollowsThePolicy :
    (∀ m, Config.default.opc.get m ≠ 16) ∧ (∀ m, Config.default.opc.get m ≠ -1) ∧
    (boot [16]).run = .running ∧ (boot [16]).progCell 0 = some 16 ∧ (boot [16]).cfg.unknownOpcode = .fault ∧
    (strict (boot [-1])).run = .running ∧ (strict (boot [-1])).progCell 0 = some (-1) ∧
    (strict (boot [-1])).cfg.unknownOpcode = .skip := by
  refine ⟨fun m => by cases m <;> decide, fun m => by cases m <;> decide, ?_⟩
  decide

/-- For MissingOperandCellsRaiseTruncation and TruncationRule: every opcode with operands, one cell short; and IF with
all three missing. -/
theorem witness_TruncationRule :
    (∀ p ∈ [(Mnemonic.psh, [(1 : Int)]), (.mov, [8, 0]), (.set, [9, 0]), (.log, [10]), (.ifEq, [11, 0, 5]),
      (.ifNe, [12, 0, 5]), (.gld, [13]), (.gpt, [14]), (.ifEq, [11])],
      (boot p.2).run = .running ∧ (boot p.2).progCell (boot p.2).pc = some ((boot p.2).cfg.opc.get p.1) ∧
      ((boot p.2).count : Int) ≤ (boot p.2).pc + p.1.arity) := by decide

/-- For FaultingStepChangesNothingElse, EachCauseComesOnlyFromItsInstructions, WrapPolicyNeverOverflows: a step that
faults, from a state with no fault, under OVERFLOW = wrap. -/
theorem witness_FaultingStep :
    ∃ s t : State, ∃ f : FaultRecord, s.haltReason ≠ .fault ∧ s.fault = none ∧ s.cfg.overflow = .wrap ∧
      step s = .next t ∧ exec .div s = .next t ∧ t.haltReason = .fault ∧ t.fault = some f ∧ s.fault ≠ some f :=
  ⟨withStack [10, 0] (boot [5]), _, ⟨.divisionByZero, 0, 5, 10⟩, by decide, rfl, rfl, rfl, rfl, rfl, rfl, by decide⟩

/-- For EachStepAppendsAtMostOneEvent: an exhausted state, and a PSH that completes. -/
theorem witness_EachStepAppendsAtMostOneEvent :
    ((boot []).run = .running ∧ ((boot []).count : Int) ≤ (boot []).pc) ∧
    ∃ t, step (boot [1, 3]) = .next t ∧ (boot [1, 3]).run = .running ∧ (boot [1, 3]).fetch = .instr (.psh 3) ∧
      (Instr.psh 3).mnemonic ∈ [Mnemonic.psh, .pop, .slt, .mov, .set, .ifEq, .ifNe, .gld, .gpt] ∧
      t.haltReason ≠ .fault := ⟨by decide, _, rfl, by decide, by decide, by decide, by decide⟩

/-- For InstructionWritesIPExactlyOnce: a taken branch, and an instruction that falls through. -/
theorem witness_InstructionWritesIPExactlyOnce :
    (∃ t, (boot [11, 0, 0, 7]).fetch = .instr (.ifEq 0 0 7) ∧ step (boot [11, 0, 0, 7]) = .next t ∧
      t.haltReason ≠ .fault ∧ t.branchTaken = true) ∧
    ∃ t, (boot [15]).fetch = .instr .nop ∧ step (boot [15]) = .next t ∧ t.haltReason ≠ .fault ∧ t.branchTaken = false :=
  ⟨⟨_, by decide, rfl, by decide, rfl⟩, ⟨_, by decide, rfl, by decide, rfl⟩⟩

/-- For PshPushesTheImmediate, GldPushesTheRegister, StackOverflowOnlyFromPushes: the fullest stack that takes a push,
the empty one, and the full one. -/
theorem witness_PushBounds :
    ((strict (withStack [1] (boot []))).sp < ((strict (boot [])).cfg.stackCap : Int) - 1 ∧
      -1 ≤ (strict (withStack [1] (boot []))).sp) ∧
    ((boot []).sp < ((boot []).cfg.stackCap : Int) - 1 ∧ -1 ≤ (boot []).sp) ∧
    ((strict (boot [])).cfg.stackCap : Int) - 1 ≤ (strict (withStack [1, 2] (boot []))).sp := by decide

/-- For StackOverflowOnlyFromPushes' last clause: a PSH that overflows from an SP in its range. -/
theorem witness_StackOverflowOnlyFromPushes :
    ∃ t f, exec (.psh 1) (strict (withStack [3, 4] (boot [1, 1]))) = .next t ∧
      (strict (withStack [3, 4] (boot [1, 1]))).fault = none ∧ t.fault = some f ∧ f.cause = .stackOverflow ∧
      (strict (withStack [3, 4] (boot [1, 1]))).sp ≤ ((strict (boot [])).cfg.stackCap : Int) - 1 :=
  ⟨_, ⟨.stackOverflow, 0, 1, 1⟩, rfl, rfl, rfl, rfl, by decide⟩

/-- For PopDropsTheTop, GptCopiesTheTop, StackUnderflowWhenTooFewElements: the empty stack, one element with its top, and
one element short of two. -/
theorem witness_PopBounds :
    (boot []).sp < 0 ∧ 0 ≤ (withStack [7] (boot [])).sp ∧
    (withStack [7] (boot [])).sp < (withStack [7] (boot [])).cfg.stackCap ∧
    (withStack [7] (boot [])).stack.read (withStack [7] (boot [])).sp.toNat = some 7 ∧
    (withStack [7] (boot [])).sp < 1 ∧
    (strict (withStack [7, 8] (boot []))).sp < (strict (withStack [7, 8] (boot []))).cfg.stackCap := by decide

/-- For the arithmetic rules and SltPushesTheComparison: two elements on a full two-cell stack. -/
theorem witness_TopTwo (left right : Int) : TopTwo (strict (withStack [left, right] (boot []))) left right :=
  ⟨le_refl (1 : Int), (by decide : (1 : Int) < 2), rfl, rfl⟩

/-- For the overflow clauses: sum, difference, product and quotient out of range under OVERFLOW = fault and under wrap;
and in range at both ends. -/
theorem witness_Overflow :
    ¬ InRange 32 (2147483647 + 1) ∧ ¬ InRange 32 (-2147483648 - 1) ∧ ¬ InRange 32 (65536 * 32768) ∧
    ¬ InRange 32 (tdiv (-2147483648) (-1)) ∧ (-1 : Int) ≠ 0 ∧ InRange 32 2147483647 ∧ InRange 32 (-2147483648) ∧
    (strict (boot [])).cfg.overflow = .fault ∧ (boot []).cfg.overflow = .wrap := by decide

/-- For every register operand: the data registers at both ends, the two control registers, and the numbers just
outside. -/
theorem witness_RegisterOperands :
    NamesData Config.default 0 .a ∧ NamesData Config.default 9 .exa ∧ NamesControl Config.default 10 ∧
    NamesControl Config.default 11 ∧ NamesNothing (-1) ∧ NamesNothing 12 :=
  ⟨⟨by decide, by decide, by decide⟩, ⟨by decide, by decide, by decide⟩, ⟨by decide, .ip, by decide, by decide⟩,
    ⟨by decide, .sp, by decide, by decide⟩, by unfold NamesNothing; decide, by unfold NamesNothing; decide⟩

/-- For the branch rules: equal and unequal values with targets at both sides of 0. -/
theorem witness_BranchRule :
    (boot []).reg .a = 0 ∧ (withReg .a 4 (boot [])).reg .a ≠ 0 ∧ (-1 : Int) < 0 ∧ (0 : Int) ≤ 0 := by decide

/-- For BadRegisterOperandFaults: the second operand of MOV, its first operand passing. -/
theorem witness_BadRegisterOperandFaults :
    registerOperands (.mov 0 12) = [0] ++ 12 :: [] ∧ (∀ u ∈ [(0 : Int)], ∃ r, NamesData Config.default u r) ∧
    NamesNothing 12 := by
  refine ⟨rfl, fun u hu => ?_, by unfold NamesNothing; decide⟩
  obtain rfl := List.mem_singleton.mp hu
  exact ⟨.a, by decide, by decide, by decide⟩

/-- The opcode cell that ExecFaults and StepFaults ask for. -/
theorem witness_OpcodeCell : (boot [8, 0, 12]).progCell (boot [8, 0, 12]).pc = some 8 := by decide

/-- For WrapIsTheCongruentCell: the least width, a value congruent and in range, and one out of range. -/
theorem witness_WrapIsTheCongruentCell :
    (1 : Nat) ≤ 1 ∧ InRange 1 (-1) ∧ ((2 ^ 1 : Nat) : Int) ∣ 1 - (-1) ∧ InRange 8 (-128) ∧
    ((2 ^ 8 : Nat) : Int) ∣ 128 - (-128) := by decide

/-- For DivisionTruncatesTowardZero: operands of like and of unlike signs, and a zero dividend. -/
theorem witness_DivisionTruncatesTowardZero :
    (2 : Int) ≠ 0 ∧ (0 : Int) ≤ -7 * -2 ∧ (-7 : Int) * 2 ≤ 0 ∧ (0 : Int) ≤ 0 * 2 := by decide

/-- For OnlyMinOverMinusOneOverflows. -/
theorem witness_OnlyMinOverMinusOneOverflows :
    (1 : Nat) ≤ 8 ∧ InRange 8 (cellMin 8) ∧ InRange 8 (-1) ∧ (-1 : Int) ≠ 0 ∧ InRange 8 127 := by decide

/-- For BinaryOperationIsPopPopPush: SP at both ends of its range. -/
theorem witness_BinaryOperationIsPopPopPush :
    1 ≤ (strict (withStack [1, 2] (boot []))).sp ∧
    (strict (withStack [1, 2] (boot []))).sp < (strict (withStack [1, 2] (boot []))).cfg.stackCap := by decide

/-- For the frames: an ADD that completes, a register it may not write, a stack cell it does not store to. -/
theorem witness_Frames :
    ∃ t, exec .add (withStack [9, 3, 4] (boot [3])) = .next t ∧ ¬ MayWrite Config.default .add .a ∧
      storeIndex .add (withStack [9, 3, 4] (boot [3])) ≠ some 0 ∧
      storeIndex .add (withStack [9, 3, 4] (boot [3])) = some 1 :=
  ⟨_, rfl, by unfold MayWrite; decide, by decide, by decide⟩

/-- For StackPointerMovesByOnePerPushOrPop, RunStateChangesOnlyByHltOrFault, OnlyLogWritesProgramOutput: HLT, LOG and
GLD complete. -/
theorem witness_Completions :
    (∃ t, exec .hlt (boot [0]) = .next t ∧ t.haltReason = .hlt) ∧
    (∃ t, exec (.log 0) (boot [10, 0]) = .next t ∧ programOutput t.out = [.log 0]) ∧
    ∃ t, exec (.gld 0) (boot [13, 0]) = .next t ∧ t.sp = 0 :=
  ⟨⟨_, rfl, rfl⟩, ⟨_, rfl, by decide⟩, ⟨_, rfl, by decide⟩⟩

/-- For HiddenStackCellsAreUnobservable: two states that differ in a cell above SP, and the first steps. -/
theorem witness_HiddenStackCellsAreUnobservable :
    ∃ s t s' : State, SameButHidden s t ∧ s ≠ t ∧ step s = .next s' := by
  refine ⟨{ withStack [1, 2] (boot [2]) with regs := { RegBank.reset with sp := 0 } },
    { withStack [1, 7] (boot [2]) with regs := { RegBank.reset with sp := 0 } }, _, ⟨⟨_, rfl⟩, ?_⟩, by decide, rfl⟩
  intro n hn
  have hn : (n : Int) ≤ 0 := hn
  obtain rfl : n = 0 := by omega
  decide

/-- For ScratchValuesDoNotLeak: two states that differ in EX, at an ADD. -/
theorem witness_ScratchValuesDoNotLeak :
    ∃ s t s' : State, SameButScratch s t ∧ s ≠ t ∧ (∀ i, s.fetch = .instr i → ¬ ReadsScratch s.cfg i) ∧
      step s = .next s' := by
  refine ⟨withStack [3, 4] (boot [3]), withReg .ex 5 (withStack [3, 4] (boot [3])), _, ⟨5, 0, 0, rfl⟩, by decide, ?_, rfl⟩
  intro i hi
  have h : (withStack [3, 4] (boot [3])).fetch = .instr .add := by decide
  rw [h] at hi
  cases hi
  exact id

/-- For TableWordRoundTrip: operands at both ends of a cell. -/
theorem witness_TableWordRoundTrip :
    (Instr.ifEq 12 (-2147483648) 2147483647).operandsFit Config.default = true ∧
    decodeTableWord 128 (encodeWord Config.default (.ifEq 12 (-2147483648) 2147483647)) =
      some (.ifEq 12 (-2147483648) 2147483647) := by decide

/-- For DecodedCellsAreTheEncoding: an instruction that ends at the last valid cell. -/
theorem witness_DecodedCellsAreTheEncoding :
    decode Config.default 2 (cellAt [1, 3]) 0 = .instr (.psh 3) ∧ (encode Config.default (.psh 3))[1]? = some 3 := by decide

end Sys2Proof.Machine.Tests
end

/-! PROOFS. Reset (10_state.md R25, 70_reset_and_hazards.md R150): the table of reset values is proved once, for every
configuration, store, count and draw number, because asserting reset, `State.reset` and a loaded program are all
instances of `State.resetWith`. -/

namespace Sys2Proof.Machine

/-! ### The reset values of R25, field by field -/

section
variable (cfg : Config) (prog : Memory) (count draws : Nat)

@[simp] theorem State.resetWith_regs : (State.resetWith cfg prog count draws).regs =
    { a := 0, b := 0, c := 0, d := 0, e := 0, f := 0, i := 0, j := 0, ex := 0, exa := 0, ip := 0, sp := -1 } := rfl
@[simp] theorem State.resetWith_run : (State.resetWith cfg prog count draws).run = .running := rfl
@[simp] theorem State.resetWith_haltReason : (State.resetWith cfg prog count draws).haltReason = .none := rfl
@[simp] theorem State.resetWith_branchTaken : (State.resetWith cfg prog count draws).branchTaken = false := rfl
@[simp] theorem State.resetWith_fault : (State.resetWith cfg prog count draws).fault = none := rfl
@[simp] theorem State.resetWith_out : (State.resetWith cfg prog count draws).out = [] := rfl

end

/-! ### The two resets -/

/-- R113: what the host supplies, and the draw number (log 17), is all of the old state that reset keeps. -/
theorem State.assertReset_eq_resetWith (s : State) :
    s.assertReset = State.resetWith s.cfg s.prog s.count s.draws := rfl

theorem State.reset_eq_resetWith : State.reset = State.resetWith Config.default [] 0 0 := rfl

/-- Settles O1: both resets are instances of `State.resetWith`, whose values do not depend on its arguments. -/
theorem resetEstablishesTheSpecifiedValues : Obligations.ResetEstablishesTheSpecifiedValues := by
  intro s
  rw [State.assertReset_eq_resetWith, State.reset_eq_resetWith]
  have same_bank : (State.resetWith Config.default [] 0 0).regs =
      (State.resetWith s.cfg s.prog s.count s.draws).regs := by
    rw [State.resetWith_regs, State.resetWith_regs]
  exact ⟨State.resetWith_regs .., State.resetWith_run .., State.resetWith_haltReason ..,
    State.resetWith_branchTaken .., State.resetWith_fault .., State.resetWith_out ..,
    same_bank, State.resetWith_run .., State.resetWith_haltReason ..,
    State.resetWith_branchTaken .., State.resetWith_fault .., State.resetWith_out ..⟩

end Sys2Proof.Machine

/-! PROOFS. The cycle (40_dispatch_cycle.md R60 to R71). First what fetching finds, at an unknown opcode and at the cells
of an instruction; then the step that runs it; then HLT and NOP; then the events a step appends. -/

namespace Sys2Proof

/-! ### Opcode numbers -/

theorem Mnemonic.mem_all (m : Mnemonic) : m ∈ Mnemonic.all := by cases m <;> decide

/-- A number has no mnemonic exactly where no mnemonic has that number (30_encoding.md R50). -/
theorem Config.mnemonicOf_eq_none {c : Config} {op : Int} : c.mnemonicOf op = none ↔ ∀ m, c.opc.get m ≠ op := by
  simp [Config.mnemonicOf, Mnemonic.mem_all]

/-- OPC is injective (00_scope.md R4). -/
theorem Config.WF.opc_injective {c : Config} (h : c.WF) : Function.Injective c.opc.get := by
  obtain ⟨-, -, -, -, hnodup, -, -⟩ := h
  exact fun m n => List.inj_on_of_nodup_map hnodup m.mem_all n.mem_all

/-- A well-formed OPC reads back the mnemonic it numbers. -/
theorem Config.WF.mnemonicOf_get {c : Config} (h : c.WF) (m : Mnemonic) : c.mnemonicOf (c.opc.get m) = some m := by
  cases hm : c.mnemonicOf (c.opc.get m) with
  | none => exact absurd rfl (Config.mnemonicOf_eq_none.mp hm m)
  | some n =>
    have hn : c.opc.get n = c.opc.get m := by simpa using List.find?_some hm
    rw [h.opc_injective hn]

/-! ### Decoding cells that stand in a store -/

/-- The reader finds the cells `vs` in a row from index `a`. -/
def CellsAt (read : Int → Option Int) (a : Int) : List Int → Prop
  | [] => True
  | v :: vs => read a = some v ∧ CellsAt read (a + 1) vs

theorem cellsAt_of_getElem? {read : Int → Option Int} {a : Int} {vs : List Int}
    (h : ∀ (k : Nat) (v : Int), vs[k]? = some v → read (a + k) = some v) : CellsAt read a vs := by
  induction vs generalizing a with
  | nil => trivial
  | cons v vs ih =>
    have hhead : read a = some v := by simpa using h 0 v rfl
    refine ⟨hhead, ih fun k w hw => ?_⟩
    have hindex : a + 1 + (k : Int) = a + ((k + 1 : Nat) : Int) := by omega
    rw [hindex]
    exact h (k + 1) w hw

theorem Instr.length_operands (i : Instr) : i.operands.length = i.mnemonic.arity := by cases i <;> rfl

/-- Operand cells that stand after the opcode decode to the instruction they belong to (30_encoding.md R46, R47). -/
theorem decodeOperands_of_cellsAt {read : Int → Option Int} {pc : Int} {i : Instr}
    (h : CellsAt read (pc + 1) i.operands) : decodeOperands read pc i.mnemonic = .instr i := by
  cases i with
  | hlt | pop | add | mul | div | sub | slt | nop => rfl
  | psh v | log v | gld v | gpt v =>
    obtain ⟨hv, -⟩ := h
    simp [Instr.mnemonic, decodeOperands, decodeOne, hv]
  | mov v w | set v w =>
    obtain ⟨hv, hw, -⟩ := h
    simp [Instr.mnemonic, decodeOperands, decodeTwo, decodeOne, hv, hw]
  | ifEq v w t | ifNe v w t =>
    obtain ⟨hv, hw, ht, -⟩ := h
    simp [Instr.mnemonic, decodeOperands, decodeThree, decodeTwo, decodeOne, hv, hw, ht]

/-- Decoding at a known opcode whose operand cells all lie below `count` (30_encoding.md R49, R51). -/
theorem decode_known {c : Config} {count : Nat} {read : Int → Option Int} {pc : Int} {m : Mnemonic} (hc : c.WF)
    (hop : read pc = some (c.opc.get m)) (hlt : pc + m.arity < count) :
    decode c count read pc = decodeOperands read pc m := by
  simp [decode, hop, hc.mnemonicOf_get, hlt]

theorem decode_unknown {c : Config} {count : Nat} {read : Int → Option Int} {pc op : Int} (hop : read pc = some op)
    (hno : ∀ m, c.opc.get m ≠ op) : decode c count read pc = .unknownOpcode op := by
  simp [decode, hop, Config.mnemonicOf_eq_none.mpr hno]

end Sys2Proof

namespace Sys2Proof.Machine

/-! ### What a running step does with what it fetched -/

theorem step_of_fetch_instr {s : State} {i : Instr} (hrun : s.run = .running) (hlt : s.pc < s.count)
    (hf : s.fetch = .instr i) : step s = exec i s := by
  simp [step, hrun, hlt, hf]

theorem step_of_fetch_unknownOpcode {s : State} {op : Int} (hrun : s.run = .running) (hlt : s.pc < s.count)
    (hf : s.fetch = .unknownOpcode op) : step s = s.unknownOpcode op := by
  simp [step, hrun, hlt, hf]

/-- At the cells of an instruction, that instruction is fetched. -/
theorem fetch_encode {s : State} {i : Instr} (hc : s.cfg.WF)
    (hcells : ∀ (k : Nat) (v : Int), (encode s.cfg i)[k]? = some v → s.progCell (s.pc + k) = some v) :
    s.pc + i.mnemonic.arity < s.count ∧ s.fetch = .instr i := by
  obtain ⟨hop, hoperands⟩ : CellsAt s.progCell s.pc (encode s.cfg i) := cellsAt_of_getElem? hcells
  have hlast : i.mnemonic.arity < (encode s.cfg i).length := by simp [encode, i.length_operands]
  obtain ⟨-, hlt, -⟩ := progCell_eq_some.mp (hcells _ _ (List.getElem?_eq_getElem hlast))
  exact ⟨hlt, (decode_known hc hop hlt).trans (decodeOperands_of_cellsAt hoperands)⟩

/-- Every instruction stands in the store as its opcode number and its operands, and is run from there. -/
theorem encodedAs_encode (i : Instr) :
    EncodedAs i.mnemonic (Config.default.opc.get i.mnemonic) i i.operands := by
  refine ⟨fun _ => rfl, rfl, fun s hc hrun hcells => ?_⟩
  obtain ⟨hlt, hf⟩ := fetch_encode hc hcells
  exact step_of_fetch_instr hrun (by omega) hf

/-! ### Unknown opcodes -/

/-- At a cell that is no opcode number, the step is the unknown-opcode case (40_dispatch_cycle.md R68). -/
theorem step_unknownOpcode {s : State} {op : Int} (hrun : s.run = .running) (hop : s.progCell s.pc = some op)
    (hno : ∀ m, s.cfg.opc.get m ≠ op) : step s = s.unknownOpcode op := by
  obtain ⟨-, hlt, -⟩ := progCell_eq_some.mp hop
  exact step_of_fetch_unknownOpcode hrun hlt (decode_unknown hop hno)

theorem unknownOpcode_of_fault {s : State} {op : Int} (h : s.cfg.unknownOpcode = .fault) :
    s.unknownOpcode op = s.raiseFault .unknownOpcode op := by
  simp [State.unknownOpcode, h]

theorem unknownOpcode_of_skip {s : State} {op : Int} (h : s.cfg.unknownOpcode = .skip) :
    s.unknownOpcode op = .next ((s.startCycle.emit (.unknownOpcode s.pc op)).setPc (s.pc + 1)) := by
  simp [State.unknownOpcode, h]

/-- Settles O11: the step is the unknown-opcode case, which under each policy has one answer. -/
theorem unknownOpcodeFollowsThePolicy : Obligations.UnknownOpcodeFollowsThePolicy := by
  intro s op hrun hop hno
  rw [step_unknownOpcode hrun hop hno]
  constructor
  · intro hfault
    rw [unknownOpcode_of_fault hfault]
    exact raiseFault_eq_next.mpr ⟨op, hop, rfl⟩
  · intro hskip
    exact ⟨false, unknownOpcode_of_skip hskip⟩

/-! ### HLT and NOP -/

/-- An instruction of one cell whose case `f` always completes and takes no branch moves IP on by one
(40_dispatch_cycle.md R64). -/
theorem perform_one_cell {s : State} {m : Mnemonic} {f : State → State} (hm : m.arity = 0)
    (hbranch : (f s.startCycle).branchTaken = false) :
    s.perform m (fun s => .ok (f s)) = .next ((f s.startCycle).setPc ((f s.startCycle).pc + 1)) := by
  rw [perform_ok (body := fun s => .ok (f s)) rfl]
  simp [State.advance, hm, hbranch]

/-- Settles O16: its case halts and reports, and IP moves on by one. -/
theorem hltHaltsAndReports : Obligations.HltHaltsAndReports := by
  refine ⟨encodedAs_encode .hlt, fun s => ?_⟩
  rw [exec_hlt, perform_one_cell (f := fun s => (s.halt .hlt).emit .finished) rfl rfl]
  rfl

/-- Settles O17: its case reports, and IP moves on by one. -/
theorem nopOnlyReports : Obligations.NopOnlyReports := by
  refine ⟨encodedAs_encode .nop, fun s => ?_⟩
  rw [exec_nop, perform_one_cell (f := fun s => s.emit .nop) rfl rfl]
  rfl

/-! ### The events of a step -/

/-- The nine instructions that report nothing when they complete (40_dispatch_cycle.md R71). -/
abbrev silentMnemonics : List Mnemonic := [.psh, .pop, .slt, .mov, .set, .ifEq, .ifNe, .gld, .gpt]

/-- The output of `t` is that of `s` with at most one event after it. -/
def AppendsAtMostOne (s t : State) : Prop := ∃ es, es.length ≤ 1 ∧ t.out = s.out ++ es

theorem AppendsAtMostOne.of_same {s t : State} (h : t.out = s.out) : AppendsAtMostOne s t :=
  ⟨[], Nat.zero_le 1, by rw [h, List.append_nil]⟩

theorem AppendsAtMostOne.of_event {s t : State} {e : Event} (h : t.out = s.out ++ [e]) : AppendsAtMostOne s t :=
  ⟨[e], Nat.le_refl 1, h⟩

/-- A completed branch reports nothing, taken or not. -/
theorem Completed.BranchCompleted.out_eq {s t : State} {cond : Bool} {tgt : Int}
    (h : Completed.BranchCompleted s t cond tgt) : t.out = s.out := by
  obtain ⟨-, -, rfl⟩ | ⟨-, rfl⟩ := h <;> rfl

theorem Completed.ArithCompleted.out_eq {s t : State} {op : ArithOp} {f : Int → Int → Int}
    (h : Completed.ArithCompleted s t op f) : ∃ e, t.out = s.out ++ [e] := by
  obtain ⟨left, right, -, -, -, rfl⟩ := h
  exact ⟨.arith op left right _, rfl⟩

/-- What a completed instruction reports: nothing, or one event where it is not one of the silent nine. -/
theorem Completed.out_cases {i : Instr} {s t : State} (h : Completed s t i) :
    t.out = s.out ∨ i.mnemonic ∉ silentMnemonics ∧ ∃ e, t.out = s.out ++ [e] := by
  cases i with
  | hlt => cases h; exact .inr ⟨by decide, .finished, rfl⟩
  | nop => cases h; exact .inr ⟨by decide, .nop, rfl⟩
  | log v =>
    obtain ⟨src, -, rfl⟩ := h
    exact .inr ⟨(by decide : Mnemonic.log ∉ silentMnemonics), .log (s.reg src), rfl⟩
  | add | sub | mul | div => exact .inr ⟨by decide, Completed.ArithCompleted.out_eq h⟩
  | psh v => obtain ⟨-, -, rfl⟩ := h; exact .inl rfl
  | pop => obtain ⟨-, rfl⟩ := h; exact .inl rfl
  | slt => obtain ⟨left, right, -, rfl⟩ := h; exact .inl rfl
  | mov rs rd => obtain ⟨src, dst, -, -, rfl⟩ := h; exact .inl rfl
  | set v imm => obtain ⟨dst, -, rfl⟩ := h; exact .inl rfl
  | ifEq v imm tgt => obtain ⟨src, -, hb⟩ := h; exact .inl hb.out_eq
  | ifNe v imm tgt => obtain ⟨src, -, hb⟩ := h; exact .inl hb.out_eq
  | gld v => obtain ⟨src, -, -, -, rfl⟩ := h; exact .inl rfl
  | gpt v => obtain ⟨dst, top, -, -, -, -, rfl⟩ := h; exact .inl rfl

/-- A raised fault appends the `Fault` event (60_exceptions.md R137). -/
theorem raiseFault_appends {s t : State} {c : Cause} {d : Int} (h : s.raiseFault c d = .next t) :
    AppendsAtMostOne s t := by
  obtain ⟨op, -, rfl⟩ := raiseFault_eq_next.mp h
  exact .of_event rfl

theorem unknownOpcode_appends {s t : State} {op : Int} (h : s.unknownOpcode op = .next t) : AppendsAtMostOne s t := by
  cases hpolicy : s.cfg.unknownOpcode with
  | fault => exact raiseFault_appends (unknownOpcode_of_fault hpolicy ▸ h)
  | skip =>
    rw [unknownOpcode_of_skip hpolicy] at h
    cases h
    exact .of_event rfl

theorem exec_appends {i : Instr} {s t : State} (h : exec i s = .next t) : AppendsAtMostOne s t := by
  obtain ⟨c, op, d, -, -, rfl⟩ | hdone := exec_cases h
  · exact .of_event rfl
  · obtain hsame | ⟨-, e, he⟩ := hdone.out_cases
    · exact .of_same hsame
    · exact .of_event he

/-- One of the silent nine that does not fault leaves the output as it was. -/
theorem exec_silent {i : Instr} {s t : State} (h : exec i s = .next t) (hi : i.mnemonic ∈ silentMnemonics)
    (hok : t.haltReason ≠ .fault) : t.out = s.out := by
  obtain ⟨c, op, d, -, -, rfl⟩ | hdone := exec_cases h
  · exact absurd rfl hok
  · obtain hsame | ⟨hloud, -⟩ := hdone.out_cases
    · exact hsame
    · exact absurd hi hloud

theorem step_appends {s t : State} (h : step s = .next t) : AppendsAtMostOne s t := by
  obtain ⟨-, rfl⟩ | ⟨-, -, rfl⟩ | ⟨-, -, i, -, hi⟩ | ⟨-, -, op, -, hop⟩ | ⟨-, -, n, -, hn⟩ := step_cases h
  · exact .of_same rfl
  · exact .of_same rfl
  · exact exec_appends hi
  · exact unknownOpcode_appends hop
  · exact raiseFault_appends hn

/-- Running off the end reports nothing (40_dispatch_cycle.md R61). -/
theorem step_exhausted {s : State} (hrun : s.run = .running) (hend : (s.count : Int) ≤ s.pc) :
    step s = .next s.exhaust := by
  simp [step, hrun, hend]

/-- An instruction is fetched only below `count`. -/
theorem pc_lt_count_of_fetch_instr {s : State} {i : Instr} (hf : s.fetch = .instr i) : s.pc < s.count := by
  cases hop : s.progCell s.pc with
  | none => simp [State.fetch, decode, hop] at hf
  | some op => exact (progCell_eq_some.mp hop).2.1

/-- Settles O14: the inversion of the step gives the one event; the silent cases are exhaustion and the nine. -/
theorem eachStepAppendsAtMostOneEvent : Obligations.EachStepAppendsAtMostOneEvent := by
  intro s t h
  refine ⟨step_appends h, fun hrun hend => ?_, fun i hrun hf hi hok => ?_⟩
  · rw [step_exhausted hrun hend] at h
    cases h
    exact State.exhaust_out s
  · rw [step_of_fetch_instr hrun (pc_lt_count_of_fetch_instr hf) hf] at h
    exact exec_silent h hi hok

end Sys2Proof.Machine

/-! PROOFS. The stack instructions (41_stack.md R81, R82). First the rules every instruction shares: truncation, the
fault its case raises, and the advance past its cells; then PSH and POP. -/

namespace Sys2Proof

/-- Decoding at a known opcode with an operand cell at or beyond `count` (30_encoding.md R51). -/
theorem decode_truncated {c : Config} {count : Nat} {read : Int → Option Int} {pc : Int} {m : Mnemonic} (hc : c.WF)
    (hop : read pc = some (c.opc.get m)) (hend : (count : Int) ≤ pc + m.arity) :
    decode c count read pc = .truncated (pc + m.arity - count + 1) := by
  simp [decode, hop, hc.mnemonicOf_get, hend]

end Sys2Proof

namespace Sys2Proof.Machine

/-! ### Truncation, faults and the advance -/

theorem step_of_fetch_truncated {s : State} {n : Int} (hrun : s.run = .running) (hlt : s.pc < s.count)
    (hf : s.fetch = .truncated n) : step s = s.raiseFault .truncatedInstruction n := by
  simp [step, hrun, hlt, hf]

/-- Every mnemonic obeys the truncation rule at its own arity (60_exceptions.md R133). -/
theorem truncationRule_arity (m : Mnemonic) : TruncationRule m m.arity := by
  intro s hc hrun hm hend op hop
  obtain ⟨-, hlt, -⟩ := progCell_eq_some.mp hm
  rw [step_of_fetch_truncated hrun hlt (decode_truncated hc hm hend)]
  exact raiseFault_eq_next.mpr ⟨op, hop, rfl⟩

/-- An instruction whose case raises takes that fault, from the state before it (40_dispatch_cycle.md R70). -/
theorem execFaults_of_raise {i : Instr} {s : State} {m : Mnemonic} {body : State → Attempt State} {c : Cause} {d : Int}
    (hi : exec i s = s.perform m body) (h : body s.startCycle = .error (.raise c d)) : ExecFaults i s c d :=
  fun _ hop => hi.trans (perform_raise h hop)

/-- A case that completes and takes no branch is followed by the advance past all its cells
(40_dispatch_cycle.md R64). -/
theorem perform_advances {s u : State} {m : Mnemonic} {body : State → Attempt State}
    (h : body s.startCycle = .ok u) (hbranch : u.branchTaken = false) :
    s.perform m body = .next (u.setPc (u.pc + (1 + m.arity))) := by
  rw [perform_ok h, ← Int.add_assoc]
  simp [State.advance, hbranch]

/-! ### PSH and POP -/

theorem execFaults_psh_full {s : State} (imm : Int) (h : (s.cfg.stackCap : Int) - 1 ≤ s.sp) :
    ExecFaults (.psh imm) s .stackOverflow s.sp :=
  execFaults_of_raise (exec_psh imm s) (push_full (s := s.startCycle) h)

/-- PSH with room on the stack (41_stack.md R81). -/
theorem exec_psh_room {s : State} (imm : Int) (hlow : -1 ≤ s.sp) (hroom : s.sp < (s.cfg.stackCap : Int) - 1) :
    exec (.psh imm) s = .next { s with
      stack := s.stack.write (s.sp + 1).toNat imm
      regs := { s.regs with sp := s.sp + 1, ip := s.pc + 2 }
      branchTaken := false } := by
  have hpush := (push_eq_ok (s := s.startCycle) (v := imm)).mpr ⟨hlow, hroom, rfl⟩
  rw [exec_psh, perform_advances hpush rfl]
  rfl

/-- Settles O18: the push decides between the overflow and the completed state, and the advance passes two cells. -/
theorem pshPushesTheImmediate : Obligations.PshPushesTheImmediate :=
  ⟨fun imm => encodedAs_encode (.psh imm), truncationRule_arity .psh,
    fun _ imm => ⟨execFaults_psh_full imm, exec_psh_room imm⟩⟩

theorem execFaults_pop_empty {s : State} (h : s.sp < 0) : ExecFaults .pop s .stackUnderflow s.sp :=
  execFaults_of_raise (exec_pop s) (attempt_bind_eq_error.mpr (.inl (raiseIf_pos h _ _)))

/-- POP with an element on the stack: no cell of the stack is written (41_stack.md R82). -/
theorem exec_pop_nonempty {s : State} (h : 0 ≤ s.sp) :
    exec .pop s = .next { s with
      regs := { s.regs with sp := s.sp - 1, ip := s.pc + 1 }
      branchTaken := false } := by
  refine (exec_pop s).trans (perform_advances (u := s.startCycle.setSp (s.sp - 1)) ?_ rfl)
  exact attempt_bind_eq_ok.mpr ⟨(), raiseIf_neg (Int.not_lt.mpr h) _ _, rfl⟩

/-- Settles O19: the check of SP decides between the underflow and the completed state, and the advance passes one
cell. -/
theorem popDropsTheTop : Obligations.PopDropsTheTop :=
  ⟨encodedAs_encode .pop, fun _ => ⟨execFaults_pop_empty, exec_pop_nonempty⟩⟩

end Sys2Proof.Machine

/-! PROOFS. The arithmetic instructions (42_arith.md R85 to R92). First the range of a narrowed value, then the binary
operation as the case of an instruction, one lemma per outcome; ADD, SUB, MUL and DIV are instances of it. SLT replaces
the two top elements without it. -/

namespace Sys2Proof.Machine

/-! ### Cell values -/

/-- Every narrowed value is a cell value (00_scope.md R5), at every width. -/
theorem wrap_inRange (xlen : Nat) (z : Int) : InRange xlen (wrap xlen z) := by
  constructor
  · simpa [cellMin, wrap] using (BitVec.ofInt xlen z).le_toInt
  · simpa [cellMax, wrap] using (BitVec.toInt_le (x := BitVec.ofInt xlen z))

/-- A draw is a cell value (42_arith.md R92). -/
theorem drawn_inRange (c : Config) (n : Nat) : InRange c.xlen (drawn c n) := wrap_inRange c.xlen (Config.freeCell n)

/-- Arithmetic completes exactly where its exact result is in range or the policy is to wrap (42_arith.md R91). -/
theorem not_overflows_iff {c : Config} {z : Int} : ¬ Overflows c z ↔ InRange c.xlen z ∨ c.overflow = .wrap := by
  rw [not_and_or, not_not]
  cases c.overflow <;> simp

theorem zeroDivisor_zero (left : Int) : zeroDivisor left 0 = .error (.raise .divisionByZero left) := raiseIf_pos rfl _ _

theorem zeroDivisor_nonzero (left : Int) {right : Int} (h : right ≠ 0) : zeroDivisor left right = .ok () :=
  raiseIf_neg h _ _

/-! ### An instruction whose case is the binary operation -/

section
variable {i : Instr} {m : Mnemonic} {op : ArithOp} {check : Int → Int → Attempt Unit} {f : Int → Int → Int}
  {s : State} {left right : Int}

theorem execFaults_binop_short (hi : exec i s = s.perform m (fun s => s.binop op check f)) (h : s.sp < 1) :
    ExecFaults i s .stackUnderflow s.sp :=
  execFaults_of_raise hi (binop_short (s := s.startCycle) h)

/-- The check comes before the operator, and what it raises is the instruction's fault (42_arith.md R85). -/
theorem execFaults_binop_check {c : Cause} {d : Int} (hi : exec i s = s.perform m (fun s => s.binop op check f))
    (ht : TopTwo s left right) (hcheck : check left right = .error (.raise c d)) : ExecFaults i s c d :=
  execFaults_of_raise hi (binop_raises (s := s.startCycle) ht (attempt_bind_eq_error.mpr (.inl hcheck)))

theorem execFaults_binop_overflow (hi : exec i s = s.perform m (fun s => s.binop op check f))
    (ht : TopTwo s left right) (hcheck : check left right = .ok ()) (hover : Overflows s.cfg (f left right)) :
    ExecFaults i s .arithmeticOverflow (wrap s.cfg.xlen (f left right)) := by
  have hnarrow := narrow_eq_error.mpr ⟨hover, rfl⟩
  exact execFaults_of_raise hi
    (binop_raises (s := s.startCycle) ht (attempt_bind_eq_error.mpr (.inr ⟨(), hcheck, hnarrow⟩)))

/-- The completed binary operation followed by the advance past its one cell; EX and EXA hold the two draws. -/
theorem exec_binop_done (hi : exec i s = s.perform m (fun s => s.binop op check f)) (hm : m.arity = 0)
    (ht : TopTwo s left right) (hcheck : check left right = .ok ()) (hfits : ¬ Overflows s.cfg (f left right)) :
    ∃ t, exec i s = .next t ∧ ArithmeticDone s t op left right (wrap s.cfg.xlen (f left right)) := by
  have hbinop := (binop_eq_ok (s := s.startCycle) (op := op)).mpr ⟨left, right, ht, hcheck, hfits, rfl⟩
  refine ⟨_, hi.trans (perform_advances hbinop rfl), drawn s.cfg s.draws, drawn s.cfg (s.draws + 1), s.draws + 2,
    drawn_inRange .., drawn_inRange .., ?_⟩
  rw [hm]
  rfl

end

/-! ### ADD, SUB, MUL and DIV -/

/-- The whole rule of an instruction of one cell whose case is the binary operation with no check before it. -/
theorem arithmeticRule_of_binop {i : Instr} {op : ArithOp} {f : Int → Int → Int} (hcells : i.operands = [])
    (hi : ∀ s, exec i s = s.perform i.mnemonic (fun s => s.binop op noCheck f)) :
    ArithmeticRule i.mnemonic (Config.default.opc.get i.mnemonic) i op f := by
  have harity : i.mnemonic.arity = 0 := by rw [← i.length_operands, hcells, List.length_nil]
  refine ⟨hcells ▸ encodedAs_encode i, fun s => ⟨execFaults_binop_short (hi s), fun left right ht => ⟨?_, ?_⟩⟩⟩
  · exact fun hrange hpolicy => execFaults_binop_overflow (hi s) ht rfl ⟨hrange, hpolicy⟩
  · exact fun hfits => exec_binop_done (hi s) harity ht rfl (not_overflows_iff.mpr hfits)

/-- Settles O20: ADD is the binary operation of the sum. -/
theorem addPushesTheSum : Obligations.AddPushesTheSum := arithmeticRule_of_binop rfl exec_add

/-- Settles O21: SUB is the binary operation of the difference, the top subtracted from the second. -/
theorem subPushesTheDifference : Obligations.SubPushesTheDifference := arithmeticRule_of_binop rfl exec_sub

/-- Settles O22: MUL is the binary operation of the product. -/
theorem mulPushesTheProduct : Obligations.MulPushesTheProduct := arithmeticRule_of_binop rfl exec_mul

/-- Settles O23: DIV is the binary operation of the truncated quotient, behind the check of the divisor. -/
theorem divPushesTheTruncatedQuotient : Obligations.DivPushesTheTruncatedQuotient := by
  refine ⟨encodedAs_encode .div, fun s => ⟨execFaults_binop_short (exec_div s), fun left right ht => ⟨?_, ?_, ?_⟩⟩⟩
  · rintro rfl
    exact execFaults_binop_check (exec_div s) ht (zeroDivisor_zero left)
  · exact fun hright hrange hpolicy =>
      execFaults_binop_overflow (exec_div s) ht (zeroDivisor_nonzero left hright) ⟨hrange, hpolicy⟩
  · exact fun hright hfits =>
      exec_binop_done (exec_div s) rfl ht (zeroDivisor_nonzero left hright) (not_overflows_iff.mpr hfits)

/-! ### SLT -/

theorem execFaults_slt_short {s : State} (h : s.sp < 1) : ExecFaults .slt s .stackUnderflow s.sp :=
  execFaults_of_raise (exec_slt s) (compareTopTwo_eq_raise.mpr ⟨h, rfl, rfl⟩)

/-- SLT with two elements on the stack (42_arith.md R90): it draws nothing and reports nothing. -/
theorem exec_slt_topTwo {s : State} {left right : Int} (ht : TopTwo s left right) :
    exec .slt s = .next { s with
      stack := s.stack.write (s.sp - 1).toNat (b2i (left < right))
      regs := { s.regs with sp := s.sp - 1, ip := s.pc + 1 }
      branchTaken := false } := by
  have hcompare := (compareTopTwo_eq_ok (s := s.startCycle)).mpr ⟨left, right, ht, rfl⟩
  exact (exec_slt s).trans (perform_advances hcompare rfl)

/-- Settles O24: the comparison decides between the underflow and the completed state, and its boolean is the cell
1 or 0. -/
theorem sltPushesTheComparison : Obligations.SltPushesTheComparison := by
  refine ⟨encodedAs_encode .slt, fun s => ⟨execFaults_slt_short, fun left right ht => ?_⟩⟩
  rw [exec_slt_topTwo ht]
  simp [b2i]

end Sys2Proof.Machine

/-! PROOFS. The register instructions (43_register.md R95 to R97). First the register-operand check at the head of an
instruction's case, with its two faults and its passing; then the write of a data register followed by the advance; then
MOV, SET and LOG. -/

namespace Sys2Proof.Machine

/-! ### An instruction whose case begins with the register-operand check -/

section
variable {i : Instr} {s : State} {m : Mnemonic} {v : Int} {k : State → RegName → Attempt State}

/-- A check that fails is the instruction's fault, whatever would follow it (30_encoding.md R54). -/
theorem registerFaultRule_of_check (hi : exec i s = s.perform m (fun s => s.regOperand v >>= k s)) :
    RegisterFaultRule i s v := by
  constructor
  · intro hnothing
    exact execFaults_of_raise hi (attempt_bind_eq_error.mpr (.inl (regOperand_nothing hnothing)))
  · intro hcontrol
    exact execFaults_of_raise hi
      (attempt_bind_eq_error.mpr (.inl (regOperand_control (s := s.startCycle) hcontrol)))

/-- A check that passes leaves the instruction with the register it found: the check reads only the configuration. -/
theorem perform_regOperand {r : RegName} (h : NamesData s.cfg v r) :
    s.perform m (fun s => s.regOperand v >>= k s) = s.perform m (fun s => k s r) := by
  have hcheck : s.startCycle.regOperand v = .ok r := regOperand_eq_ok.mpr h
  simp [State.perform, hcheck]

end

/-! ### Writing a data register -/

/-- Advancing leaves every register but IP. -/
theorem State.advanced_reg (s : State) (n : Int) {q : RegName} (h : q ≠ .ip) : (s.advanced n).reg q = s.reg q :=
  RegBank.get_set_other s.regs .ip q (s.pc + n) h

theorem State.setReg_pc (s : State) {r : RegName} (v : Int) (h : r ≠ .ip) : (s.setReg r v).pc = s.pc :=
  RegBank.get_set_other s.regs r .ip v h.symm

/-- A write to a register other than IP and the advance after it do not disturb each other. -/
theorem registerWritten_setReg_advanced (s : State) {r : RegName} (v n : Int) (h : r ≠ .ip) :
    RegisterWritten s ((s.setReg r v).advanced n) r v n := by
  refine ⟨?_, ?_, fun q hr hip => ?_, rfl⟩
  · exact (State.advanced_reg _ n h).trans (RegBank.get_set_same s.regs r v)
  · exact congrArg (· + n) (s.setReg_pc v h)
  · exact (State.advanced_reg _ n hip).trans (RegBank.get_set_other s.regs r q v hr)

/-- A case that only writes the data register named by an operand completes past all the instruction's cells. -/
theorem perform_setReg {s : State} {m : Mnemonic} {body : State → Attempt State} {u v : Int} {r : RegName}
    (hr : NamesData s.cfg u r) (h : body s.startCycle = .ok (s.startCycle.setReg r v)) :
    ∃ t, s.perform m body = .next t ∧ RegisterWritten s t r v (1 + m.arity) := by
  obtain ⟨hip, -⟩ := hr.ne_control
  refine ⟨(s.setReg r v).advanced (1 + m.arity), ?_, registerWritten_setReg_advanced s v _ hip⟩
  rw [perform_ok h, advance_startCycle_setReg s r v m.arity hip]

/-! ### MOV, SET and LOG -/

/-- MOV whose first operand passes the check is left with the check of the second. -/
theorem exec_mov_src {s : State} {rs : Int} {src : RegName} (rd : Int) (h : NamesData s.cfg rs src) :
    exec (.mov rs rd) s =
      s.perform .mov (fun s => s.regOperand rd >>= fun dst => .ok (s.setReg dst (s.reg src))) :=
  (exec_mov rs rd s).trans (perform_regOperand h)

/-- Settles O25: the two checks run in operand order, and what is left is the write of the source's value. -/
theorem movCopiesARegister : Obligations.MovCopiesARegister := by
  refine ⟨fun rs rd => encodedAs_encode (.mov rs rd), truncationRule_arity .mov, fun s rs rd => ⟨?_, ?_⟩⟩
  · exact registerFaultRule_of_check (exec_mov rs rd s)
  · intro src hsrc
    refine ⟨registerFaultRule_of_check (exec_mov_src rd hsrc), fun dst hdst => ?_⟩
    rw [exec_mov_src rd hsrc, perform_regOperand hdst]
    exact perform_setReg hdst rfl

/-- Settles O26: after the check, what is left is the write of the immediate. -/
theorem setLoadsTheImmediate : Obligations.SetLoadsTheImmediate := by
  refine ⟨fun r imm => encodedAs_encode (.set r imm), truncationRule_arity .set, fun s v imm => ⟨?_, ?_⟩⟩
  · exact registerFaultRule_of_check (exec_set v imm s)
  · intro r hr
    rw [exec_set, perform_regOperand hr]
    exact perform_setReg hr rfl

/-- Settles O27: after the check, what is left is the event, and the advance passes two cells. -/
theorem logEmitsTheRegister : Obligations.LogEmitsTheRegister := by
  refine ⟨fun r => encodedAs_encode (.log r), truncationRule_arity .log, fun s v => ⟨?_, ?_⟩⟩
  · exact registerFaultRule_of_check (exec_log v s)
  · intro r hr
    rw [exec_log, perform_regOperand hr]
    exact perform_advances (u := s.startCycle.emit (.log (s.reg r))) rfl rfl

end Sys2Proof.Machine

/-! PROOFS. The conditional branches (44_branch.md R100 to R103). First the three outcomes of an instruction whose case
is the branch on a condition already known; then the whole rule of a branch on a test of the register's value and the
immediate, of which IF and IFN are instances. -/

namespace Sys2Proof.Machine

/-! ### An instruction whose case is the branch on a condition -/

section
variable {i : Instr} {s : State} {m : Mnemonic} {cond : State → Bool} {tgt : Int}

/-- The target is checked when the branch is to be taken (44_branch.md R103). -/
theorem execFaults_branch_negative (hi : exec i s = s.perform m (fun s => s.branch (cond s) tgt))
    (hcond : cond s.startCycle = true) (hneg : tgt < 0) : ExecFaults i s .branchTargetOutOfRange tgt :=
  execFaults_of_raise hi (branch_eq_error.mpr ⟨hcond, hneg, rfl⟩)

/-- A taken branch writes IP itself, and no advance follows it (44_branch.md R100). -/
theorem perform_branch_taken (hcond : cond s.startCycle = true) (htgt : 0 ≤ tgt) :
    s.perform m (fun s => s.branch (cond s) tgt) =
      .next { s with regs := { s.regs with ip := tgt }, branchTaken := true } := by
  rw [perform_ok (body := fun s => s.branch (cond s) tgt) (branch_eq_ok.mpr (.inl ⟨hcond, htgt, rfl⟩))]
  rfl

/-- A branch not taken is only the advance, whatever its target (44_branch.md R100, R103). -/
theorem perform_branch_untaken (hcond : cond s.startCycle = false) :
    s.perform m (fun s => s.branch (cond s) tgt) = .next (s.advanced (1 + m.arity)) := by
  rw [perform_advances (body := fun s => s.branch (cond s) tgt) (branch_eq_ok.mpr (.inr ⟨hcond, rfl⟩)) rfl]
  rfl

end

/-! ### IF and IFN -/

/-- The whole rule of an instruction of four cells that checks its register operand and then branches on a test of the
register's value and the immediate. -/
theorem branchRule_of_test {m : Mnemonic} {number : Int} {branch : Int → Int → Int → Instr}
    {test : Int → Int → Bool} {cond : Int → Int → Prop}
    (hcells : ∀ v imm tgt, EncodedAs m number (branch v imm tgt) [v, imm, tgt]) (harity : m.arity = 3)
    (hexec : ∀ v imm tgt s, exec (branch v imm tgt) s =
      s.perform m (fun s => s.regOperand v >>= fun r => s.branch (test (s.reg r) imm) tgt))
    (htest : ∀ v imm, test v imm = true ↔ cond v imm) : BranchRule m number branch cond := by
  have htrunc : TruncationRule m ((3 : Nat) : Int) := harity ▸ truncationRule_arity m
  refine ⟨hcells, htrunc, fun s v imm tgt => ⟨registerFaultRule_of_check (hexec v imm tgt s), fun r hr => ?_⟩⟩
  have hi := (hexec v imm tgt s).trans (perform_regOperand hr)
  refine ⟨fun hcond hneg => ?_, fun hcond htgt => ?_, fun hcond => ?_⟩
  · exact execFaults_branch_negative hi ((htest _ _).mpr hcond) hneg
  · exact hi.trans (perform_branch_taken ((htest _ _).mpr hcond) htgt)
  · have hfalse : test (s.reg r) imm = false := Bool.eq_false_iff.mpr (mt (htest _ _).mp hcond)
    rw [hi, perform_branch_untaken hfalse, harity]
    rfl

/-- Settles O28: IF is the branch on the test of equality. -/
theorem ifBranchesWhenEqual : Obligations.IfBranchesWhenEqual :=
  branchRule_of_test (fun v imm tgt => encodedAs_encode (.ifEq v imm tgt)) rfl exec_ifEq (fun _ _ => beq_iff_eq)

/-- Settles O29: IFN is the branch on the test of inequality. -/
theorem ifnBranchesWhenNotEqual : Obligations.IfnBranchesWhenNotEqual :=
  branchRule_of_test (fun v imm tgt => encodedAs_encode (.ifNe v imm tgt)) rfl exec_ifNe (fun _ _ => bne_iff_ne)

end Sys2Proof.Machine

/-! PROOFS. The register-stack transfers (45_regstack.md R105, R106). GLD past its check is PSH of the register's value,
so its stack rules are PSH's; GPT past its check reads the top element and writes a data register. -/

namespace Sys2Proof.Machine

/-! ### GLD -/

/-- GLD whose operand passes the check is PSH of the register's value: both are two cells and one push
(41_stack.md R81, 45_regstack.md R105). -/
theorem exec_gld_eq_exec_psh {s : State} {v : Int} {r : RegName} (h : NamesData s.cfg v r) :
    exec (.gld v) s = exec (.psh (s.reg r)) s := by
  rw [exec_gld, perform_regOperand h, exec_psh]
  rfl

/-- Settles O30: the check of the register comes first, and after it GLD overflows or completes as PSH does. -/
theorem gldPushesTheRegister : Obligations.GldPushesTheRegister := by
  refine ⟨fun r => encodedAs_encode (.gld r), truncationRule_arity .gld, fun s v => ⟨?_, fun r hr => ⟨?_, ?_⟩⟩⟩
  · exact registerFaultRule_of_check (exec_gld v s)
  · intro hfull op hop
    rw [exec_gld_eq_exec_psh hr]
    exact execFaults_psh_full (s.reg r) hfull op hop
  · intro hlow hroom
    rw [exec_gld_eq_exec_psh hr]
    exact exec_psh_room (s.reg r) hlow hroom

/-! ### GPT -/

/-- GPT whose operand passes the check is left with the check of SP, the read of the top and the write. -/
theorem exec_gpt_dst {s : State} {v : Int} {r : RegName} (h : NamesData s.cfg v r) :
    exec (.gpt v) s = s.perform .gpt (fun s => raiseIf (s.sp < 0) .stackUnderflow s.sp >>= fun _ =>
      s.stackCell s.sp >>= fun top => .ok (s.setReg r top)) :=
  (exec_gpt v s).trans (perform_regOperand h)

theorem execFaults_gpt_empty {s : State} {v : Int} {r : RegName} (hr : NamesData s.cfg v r) (h : s.sp < 0) :
    ExecFaults (.gpt v) s .stackUnderflow s.sp :=
  execFaults_of_raise (exec_gpt_dst hr) (attempt_bind_eq_error.mpr (.inl (raiseIf_pos h _ _)))

/-- GPT with an element on the stack: the register is all it writes besides the advance (45_regstack.md R106). -/
theorem exec_gpt_nonempty {s : State} {v top : Int} {r : RegName} (hr : NamesData s.cfg v r) (hlow : 0 ≤ s.sp)
    (hcap : s.sp < s.cfg.stackCap) (htop : s.stack.read s.sp.toNat = some top) :
    ∃ t, exec (.gpt v) s = .next t ∧ RegisterWritten s t r top 2 := by
  have hcheck := raiseIf_neg (Int.not_lt.mpr hlow) .stackUnderflow s.sp
  have hread : s.startCycle.stackCell s.sp = .ok top := stackCell_eq_ok.mpr ⟨hlow, hcap, htop⟩
  rw [exec_gpt_dst hr]
  exact perform_setReg hr
    (attempt_bind_eq_ok.mpr ⟨(), hcheck, attempt_bind_eq_ok.mpr ⟨top, hread, rfl⟩⟩)

/-- Settles O31: the check of the register comes first, then the check of SP, and what is left is the write of the
top. -/
theorem gptCopiesTheTop : Obligations.GptCopiesTheTop := by
  refine ⟨fun r => encodedAs_encode (.gpt r), truncationRule_arity .gpt, fun s v => ⟨?_, fun r hr => ⟨?_, ?_⟩⟩⟩
  · exact registerFaultRule_of_check (exec_gpt v s)
  · exact execFaults_gpt_empty hr
  · exact fun top hlow hcap htop => exec_gpt_nonempty hr hlow hcap htop

end Sys2Proof.Machine

/-! PROOFS. The faults (60_exceptions.md R127 to R137). First missing operand cells; then what a completed instruction
leaves of the fault record and the halt reason, so that a new halt with reason Fault, or a newly recorded fault, was
raised; then the register-operand check, the stack overflow and the stack underflow across the instructions. -/

namespace Sys2Proof

/-- No instruction has more than three operand cells (30_encoding.md R46). -/
theorem Mnemonic.arity_le_three (m : Mnemonic) : m.arity ≤ 3 := by cases m <;> decide

end Sys2Proof

namespace Sys2Proof.Machine

/-! ### Missing operand cells -/

/-- Settles O12: the truncation rule at the mnemonic's own arity. The opcode cell lies below `count`, so at most all of
the operand cells are missing. -/
theorem missingOperandCellsRaiseTruncation : Obligations.MissingOperandCellsRaiseTruncation := by
  intro s m hc hrun hop hend
  obtain ⟨-, hlt, -⟩ := progCell_eq_some.mp hop
  have harity := m.arity_le_three
  exact ⟨truncationRule_arity m s hc hrun hop hend, by omega, by omega⟩

/-! ### A new halt with reason Fault -/

/-- A completed instruction records no fault, and halts, if it does, by HLT (40_dispatch_cycle.md R63). -/
theorem Completed.fault_and_haltReason {i : Instr} {s t : State} (h : Completed s t i) :
    t.fault = s.fault ∧ (t.haltReason = s.haltReason ∨ t.haltReason = .hlt) := by
  cases i with
  | hlt => cases h; exact ⟨rfl, .inr rfl⟩
  | nop => cases h; exact ⟨rfl, .inl rfl⟩
  | psh v => obtain ⟨-, -, rfl⟩ := h; exact ⟨rfl, .inl rfl⟩
  | pop => obtain ⟨-, rfl⟩ := h; exact ⟨rfl, .inl rfl⟩
  | add | sub | mul | div => obtain ⟨left, right, -, -, -, rfl⟩ := h; exact ⟨rfl, .inl rfl⟩
  | slt => obtain ⟨left, right, -, rfl⟩ := h; exact ⟨rfl, .inl rfl⟩
  | mov rs rd => obtain ⟨src, dst, -, -, rfl⟩ := h; exact ⟨rfl, .inl rfl⟩
  | set v imm => obtain ⟨dst, -, rfl⟩ := h; exact ⟨rfl, .inl rfl⟩
  | log v => obtain ⟨src, -, rfl⟩ := h; exact ⟨rfl, .inl rfl⟩
  | ifEq v imm tgt | ifNe v imm tgt =>
    obtain ⟨src, -, ⟨-, -, rfl⟩ | ⟨-, rfl⟩⟩ := h <;> exact ⟨rfl, .inl rfl⟩
  | gld v => obtain ⟨src, -, -, -, rfl⟩ := h; exact ⟨rfl, .inl rfl⟩
  | gpt v => obtain ⟨dst, top, -, -, -, -, rfl⟩ := h; exact ⟨rfl, .inl rfl⟩

/-- A state that a fault of the instruction at IP has left (60_exceptions.md R137). -/
def FaultTaken (s t : State) : Prop := ∃ c op info, s.progCell s.pc = some op ∧ t = faultState s c op info

theorem raiseFault_taken {s t : State} {c : Cause} {d : Int} (h : s.raiseFault c d = .next t) : FaultTaken s t := by
  obtain ⟨op, hop, rfl⟩ := raiseFault_eq_next.mp h
  exact ⟨c, op, d, hop, rfl⟩

/-- An instruction that newly halts with reason Fault took a fault: completing halts by HLT alone. -/
theorem exec_fault_taken {i : Instr} {s t : State} (hs : s.haltReason ≠ .fault) (h : exec i s = .next t)
    (ht : t.haltReason = .fault) : FaultTaken s t := by
  obtain ⟨c, op, d, hop, -, rfl⟩ | hdone := exec_cases h
  · exact ⟨c, op, d, hop, rfl⟩
  · obtain ⟨-, hsame | hhlt⟩ := hdone.fault_and_haltReason
    · exact absurd (hsame.symm.trans ht) hs
    · cases hhlt.symm.trans ht

/-- An unknown opcode that newly halts with reason Fault took a fault: skipping it does not halt. -/
theorem unknownOpcode_fault_taken {s t : State} {op : Int} (hs : s.haltReason ≠ .fault)
    (h : s.unknownOpcode op = .next t) (ht : t.haltReason = .fault) : FaultTaken s t := by
  cases hpolicy : s.cfg.unknownOpcode with
  | fault => exact raiseFault_taken (unknownOpcode_of_fault hpolicy ▸ h)
  | skip =>
    rw [unknownOpcode_of_skip hpolicy] at h
    cases h
    exact absurd ht hs

/-- Settles O13, by the inversion of the step: a frozen state is as it was, exhaustion has its own halt reason, and what
else halts with reason Fault took a fault. -/
theorem faultingStepChangesNothingElse : Obligations.FaultingStepChangesNothingElse := by
  intro s t hs h ht
  obtain ⟨-, rfl⟩ | ⟨-, -, rfl⟩ | ⟨-, -, i, -, hi⟩ | ⟨-, -, op, -, hop⟩ | ⟨-, -, n, -, hn⟩ := step_cases h
  · exact absurd ht hs
  · cases ht
  · exact exec_fault_taken hs hi ht
  · exact unknownOpcode_fault_taken hs hop ht
  · exact raiseFault_taken hn

/-! ### The register-operand check across the instructions -/

/-- Every instruction that has a register operand begins with the check of its first (30_encoding.md R54). -/
theorem registerFaultRule_first {i : Instr} {v : Int} {vs : List Int} (s : State) (h : registerOperands i = v :: vs) :
    RegisterFaultRule i s v := by
  cases i with
  | hlt | psh | pop | add | mul | div | sub | slt | nop => cases h
  | mov rs rd => cases h; exact registerFaultRule_of_check (exec_mov v rd s)
  | set r imm => cases h; exact registerFaultRule_of_check (exec_set v imm s)
  | log r => cases h; exact registerFaultRule_of_check (exec_log v s)
  | ifEq r imm tgt => cases h; exact registerFaultRule_of_check (exec_ifEq v imm tgt s)
  | ifNe r imm tgt => cases h; exact registerFaultRule_of_check (exec_ifNe v imm tgt s)
  | gld r => cases h; exact registerFaultRule_of_check (exec_gld v s)
  | gpt r => cases h; exact registerFaultRule_of_check (exec_gpt v s)

/-- Only MOV has a second register operand, and it has no third (30_encoding.md R46). -/
theorem eq_mov_of_registerOperands {i : Instr} {u v : Int} {vs : List Int} (h : registerOperands i = u :: v :: vs) :
    i = .mov u v ∧ vs = [] := by
  cases i with
  | mov rs rd => cases h; exact ⟨rfl, rfl⟩
  | _ => cases h

/-- Settles O32: the operand is the first one, or it is MOV's second behind a first that passes. -/
theorem badRegisterOperandFaults : Obligations.BadRegisterOperandFaults := by
  intro i s before after v hoperands hpass
  cases before with
  | nil => exact registerFaultRule_first s hoperands
  | cons u us =>
    cases us with
    | nil =>
      obtain ⟨rfl, -⟩ := eq_mov_of_registerOperands hoperands
      obtain ⟨src, hsrc⟩ := hpass u List.mem_cons_self
      exact registerFaultRule_of_check (exec_mov_src v hsrc)
    | cons w ws =>
      obtain ⟨-, hnone⟩ := eq_mov_of_registerOperands hoperands
      exact absurd hnone (List.append_ne_nil_of_right_ne_nil ws (List.cons_ne_nil v after))

/-! ### Stack overflow -/

/-- GLD on a full stack, past its register check: the push overflows (45_regstack.md R105). -/
theorem execFaults_gld_full {s : State} {v : Int} {r : RegName} (hr : NamesData s.cfg v r)
    (h : (s.cfg.stackCap : Int) - 1 ≤ s.sp) : ExecFaults (.gld v) s .stackOverflow s.sp := by
  intro op hop
  rw [exec_gld_eq_exec_psh hr]
  exact execFaults_psh_full (s.reg r) h op hop

/-- A fault that an instruction newly records is one of its own causes (60_exceptions.md R126). -/
theorem exec_newFault_cause {i : Instr} {s t : State} {f : FaultRecord} (h : exec i s = .next t)
    (hs : s.fault ≠ some f) (ht : t.fault = some f) : i.mnemonic ∈ raisers f.cause := by
  obtain ⟨c, op, d, -, hraiser, rfl⟩ | hdone := exec_cases h
  · cases ht
    exact hraiser
  · obtain ⟨hsame, -⟩ := hdone.fault_and_haltReason
    exact absurd (hsame.symm.trans ht) hs

/-- A fault newly recorded over a case that records none itself is what the case raised. -/
theorem perform_newFault {s t : State} {m : Mnemonic} {body : State → Attempt State} {f : FaultRecord}
    (hkeep : ∀ u, body s.startCycle = .ok u → u.fault = s.fault) (h : s.perform m body = .next t)
    (hs : s.fault ≠ some f) (ht : t.fault = some f) : body s.startCycle = .error (.raise f.cause f.info) := by
  obtain ⟨u, hu, rfl⟩ | ⟨c, d, op, hraise, -, rfl⟩ := perform_eq_next.mp h
  · have hadvance : (u.advance m.arity).fault = u.fault := by unfold State.advance; split <;> rfl
    exact absurd ((hkeep u hu).symm.trans (hadvance.symm.trans ht)) hs
  · cases ht
    exact hraise

theorem push_fault {s t : State} {v : Int} (h : s.push v = .ok t) : t.fault = s.fault := by
  obtain ⟨-, -, rfl⟩ := push_eq_ok.mp h
  rfl

/-- PSH newly records a fault only on a full stack, with SP as its info (60_exceptions.md R127). -/
theorem exec_psh_newFault {s t : State} {imm : Int} {f : FaultRecord} (h : exec (.psh imm) s = .next t)
    (hs : s.fault ≠ some f) (ht : t.fault = some f) : (s.cfg.stackCap : Int) - 1 ≤ s.sp ∧ f.info = s.sp := by
  rw [exec_psh] at h
  obtain ⟨hfull, -, hinfo⟩ := push_eq_raise (perform_newFault (fun _ => push_fault) h hs ht)
  exact ⟨hfull, hinfo⟩

/-- GLD newly records StackOverflow only past its register check, by the push, with SP as the info
(45_regstack.md R105). -/
theorem exec_gld_newOverflow {s t : State} {v : Int} {f : FaultRecord} (h : exec (.gld v) s = .next t)
    (hs : s.fault ≠ some f) (ht : t.fault = some f) (hcause : f.cause = .stackOverflow) :
    (s.cfg.stackCap : Int) - 1 ≤ s.sp ∧ f.info = s.sp := by
  have hkeep : ∀ u, (s.startCycle.regOperand v >>= fun r => s.startCycle.push (s.reg r)) = .ok u →
      u.fault = s.fault := by
    intro u hu
    obtain ⟨r, -, hpush⟩ := attempt_bind_eq_ok.mp hu
    exact (push_fault hpush).trans s.startCycle_fault
  rw [exec_gld] at h
  obtain hcheck | ⟨r, -, hpush⟩ := attempt_bind_eq_error.mp (perform_newFault hkeep h hs ht)
  · rw [hcause] at hcheck
    obtain he | he := regOperand_eq_error hcheck <;> cases he
  · obtain ⟨hfull, -, hinfo⟩ := push_eq_raise hpush
    exact ⟨hfull, hinfo⟩

/-- The instructions that may raise StackOverflow are the two that push (60_exceptions.md R126). -/
theorem pushes_of_mem_raisers {i : Instr} (h : i.mnemonic ∈ raisers .stackOverflow) :
    (∃ imm, i = .psh imm) ∨ ∃ v, i = .gld v := by
  cases i with
  | psh imm => exact .inl ⟨imm, rfl⟩
  | gld v => exact .inr ⟨v, rfl⟩
  | _ => simp [Instr.mnemonic, raisers] at h

/-- Settles O33: both pushes overflow on a full stack; a newly recorded StackOverflow comes from one of them, with SP as
its info, which is the top of its range. -/
theorem stackOverflowOnlyFromPushes : Obligations.StackOverflowOnlyFromPushes := by
  refine ⟨fun _ imm => execFaults_psh_full imm, fun _ _ _ => execFaults_gld_full, fun i s t f h hnone ht hcause => ?_⟩
  have hs : s.fault ≠ some f := by simp [hnone]
  have hpush := pushes_of_mem_raisers (hcause ▸ exec_newFault_cause h hs ht)
  have hinfo : (s.cfg.stackCap : Int) - 1 ≤ s.sp ∧ f.info = s.sp := by
    obtain ⟨imm, rfl⟩ | ⟨v, rfl⟩ := hpush
    · exact exec_psh_newFault h hs ht
    · exact exec_gld_newOverflow h hs ht hcause
  exact ⟨hpush, by omega⟩

/-! ### Stack underflow -/

/-- Settles O34: POP and GPT check for one element, the binary operation and the comparison for two, before they touch
the stack. -/
theorem stackUnderflowWhenTooFewElements : Obligations.StackUnderflowWhenTooFewElements := by
  refine ⟨fun _ => execFaults_pop_empty, fun _ _ _ => execFaults_gpt_empty, fun i s hi h => ?_⟩
  simp only [List.mem_cons, List.not_mem_nil, or_false] at hi
  obtain rfl | rfl | rfl | rfl | rfl := hi
  · exact execFaults_binop_short (exec_add s) h
  · exact execFaults_binop_short (exec_sub s) h
  · exact execFaults_binop_short (exec_mul s) h
  · exact execFaults_binop_short (exec_div s) h
  · exact execFaults_slt_short h

end Sys2Proof.Machine

/-! PROOFS. The arithmetic of cells (00_scope.md R5, 42_arith.md R91): a cell value is determined by its residue modulo
2^XLEN, so `wrap` is the only candidate; the truncated quotient is determined by its magnitude and its sign, so its range
is read off the two. -/

namespace Sys2Proof.Machine

/-! ### `wrap` -/

/-- 2^XLEN counts the cell values: it is MAX - MIN + 1. -/
theorem two_pow_eq_cellMax_sub_cellMin {xlen : Nat} (h : 1 ≤ xlen) :
    ((2 ^ xlen : Nat) : Int) = cellMax xlen - cellMin xlen + 1 := by
  obtain ⟨n, rfl⟩ := Nat.exists_eq_add_of_le' h
  simp only [cellMax, cellMin, Nat.add_sub_cancel, pow_succ]
  omega

/-- Two cell values that differ by a multiple of 2^XLEN are equal. -/
theorem eq_of_inRange_of_dvd_sub {xlen : Nat} {v w : Int} (h : 1 ≤ xlen) (hv : InRange xlen v) (hw : InRange xlen w)
    (hdvd : ((2 ^ xlen : Nat) : Int) ∣ v - w) : v = w := by
  have hspan := two_pow_eq_cellMax_sub_cellMin h
  have hclose : |v - w| < ((2 ^ xlen : Nat) : Int) := abs_lt.mpr ⟨by omega, by omega⟩
  exact sub_eq_zero.mp (Int.eq_zero_of_abs_lt_dvd hdvd hclose)

theorem dvd_sub_wrap (xlen : Nat) (z : Int) : ((2 ^ xlen : Nat) : Int) ∣ z - wrap xlen z := by
  rw [wrap, BitVec.toInt_ofInt]
  exact Int.dvd_self_sub_bmod

/-- `wrap(z)` is the one cell value congruent to `z`. -/
theorem eq_wrap {xlen : Nat} {v z : Int} (h : 1 ≤ xlen) (hv : InRange xlen v)
    (hdvd : ((2 ^ xlen : Nat) : Int) ∣ z - v) : v = wrap xlen z := by
  refine eq_of_inRange_of_dvd_sub h hv (wrap_inRange xlen z) ?_
  have hdiff := dvd_sub (dvd_sub_wrap xlen z) hdvd
  rwa [sub_sub_sub_cancel_left] at hdiff

theorem wrap_of_inRange {xlen : Nat} {z : Int} (h : 1 ≤ xlen) (hz : InRange xlen z) : wrap xlen z = z :=
  (eq_wrap h hz (by simp)).symm

/-- Settles O38: a wrapped value is a cell value and congruent, and cell values are determined by their residue. -/
theorem wrapIsTheCongruentCell : Obligations.WrapIsTheCongruentCell :=
  fun xlen z h => ⟨wrap_inRange xlen z, dvd_sub_wrap xlen z, fun _ => eq_wrap h, wrap_of_inRange h⟩

/-! ### `tdiv` -/

theorem abs_tdiv (left right : Int) : |tdiv left right| = |left| / |right| := by
  simp only [tdiv, Int.abs_eq_natAbs, Int.natAbs_tdiv]
  exact Int.natCast_ediv _ _

/-- Operands of like sign have a quotient that is not negative. -/
theorem tdiv_nonneg_of_mul_nonneg {left right : Int} (h : 0 ≤ left * right) : 0 ≤ tdiv left right := by
  obtain ⟨hl, hr⟩ | ⟨hl, hr⟩ := mul_nonneg_iff.mp h
  · exact Int.tdiv_nonneg hl hr
  · rw [tdiv, ← Int.neg_tdiv_neg]
    exact Int.tdiv_nonneg (Int.neg_nonneg.mpr hl) (Int.neg_nonneg.mpr hr)

/-- Operands of unlike sign: negating the dividend negates the quotient. -/
theorem tdiv_nonpos_of_mul_nonpos {left right : Int} (h : left * right ≤ 0) : tdiv left right ≤ 0 := by
  have hneg : 0 ≤ tdiv (-left) right := tdiv_nonneg_of_mul_nonneg (by rw [Int.neg_mul]; omega)
  rw [tdiv, Int.neg_tdiv] at hneg
  exact Int.neg_nonneg.mp hneg

/-- Settles O39: the magnitude, and the sign for operands of like and of unlike sign. -/
theorem divisionTruncatesTowardZero : Obligations.DivisionTruncatesTowardZero :=
  fun left right _ => ⟨abs_tdiv left right, tdiv_nonneg_of_mul_nonneg, tdiv_nonpos_of_mul_nonpos⟩

theorem tdiv_neg_one (left : Int) : tdiv left (-1) = -left := by
  rw [tdiv, Int.tdiv_neg, Int.tdiv_one]

/-- A divisor of magnitude 2 or more at least halves the magnitude of the dividend. -/
theorem two_mul_abs_tdiv_le {left right : Int} (h : 2 ≤ |right|) : 2 * |tdiv left right| ≤ |left| := by
  have hfloor : |tdiv left right| * |right| ≤ |left| := by
    rw [abs_tdiv]
    exact Int.ediv_mul_le _ (by omega)
  calc 2 * |tdiv left right| ≤ |right| * |tdiv left right| := mul_le_mul_of_nonneg_right h (abs_nonneg _)
    _ ≤ |left| := by rwa [mul_comm]

/-- No divisor but -1 takes a cell value out of range. -/
theorem tdiv_inRange {xlen : Nat} {left right : Int} (hleft : InRange xlen left) (hzero : right ≠ 0)
    (hone : right ≠ -1) : InRange xlen (tdiv left right) := by
  by_cases hsmall : right = 1
  · rwa [hsmall, tdiv, Int.tdiv_one]
  · have hlarge : 2 ≤ |right| := le_abs.mpr (by omega)
    have hhalf := two_mul_abs_tdiv_le (left := left) hlarge
    have hpos : 0 < 2 ^ (xlen - 1) := Nat.two_pow_pos _
    simp only [InRange, cellMin, cellMax] at hleft ⊢
    have hbound : |left| ≤ ((2 ^ (xlen - 1) : Nat) : Int) := abs_le.mpr ⟨by omega, by omega⟩
    obtain ⟨hlow, hhigh⟩ := abs_le.mp (le_refl |tdiv left right|)
    omega

/-- A cell value other than MIN has its negation in range, and MIN has not. -/
theorem neg_inRange_iff {xlen : Nat} {left : Int} (hleft : InRange xlen left) :
    InRange xlen (-left) ↔ left ≠ cellMin xlen := by
  simp only [InRange, cellMin, cellMax] at hleft ⊢
  omega

theorem cellMin_inRange (xlen : Nat) : InRange xlen (cellMin xlen) := by
  have hpos : 0 < 2 ^ (xlen - 1) := Nat.two_pow_pos _
  simp only [InRange, cellMin, cellMax]
  omega

theorem wrap_neg_cellMin {xlen : Nat} (h : 1 ≤ xlen) : wrap xlen (-cellMin xlen) = cellMin xlen := by
  refine (eq_wrap h (cellMin_inRange xlen) ?_).symm
  rw [two_pow_eq_cellMax_sub_cellMin h]
  exact dvd_of_eq (by simp only [cellMin, cellMax]; omega)

/-- Settles O40: only the divisor -1 can leave the range, and dividing by it is negation. -/
theorem onlyMinOverMinusOneOverflows : Obligations.OnlyMinOverMinusOneOverflows := by
  intro xlen left right h hleft _ hzero
  refine ⟨?_, by rw [tdiv_neg_one, wrap_neg_cellMin h]⟩
  by_cases hone : right = -1
  · rw [hone, tdiv_neg_one, neg_inRange_iff hleft]
    simp
  · exact iff_of_false (not_not_intro (tdiv_inRange hleft hzero hone)) fun hboth => hone hboth.2

end Sys2Proof.Machine

/-! PROOFS. The encoding (30_encoding.md R45 to R53). First the opcode map; then decoding the cells of an instruction,
in a list, on bits and in the store of a running machine; then the inversion of decoding. -/

namespace Sys2Proof

/-! ### The opcode map -/

/-- A cell that selects a mnemonic is that mnemonic's number, in any map. -/
theorem Config.get_of_mnemonicOf {c : Config} {op : Int} {m : Mnemonic} (h : c.mnemonicOf op = some m) :
    c.opc.get m = op := by
  simpa using List.find?_some h

theorem Config.WF.mnemonicOf_eq_some {c : Config} (hc : c.WF) {op : Int} {m : Mnemonic} :
    c.mnemonicOf op = some m ↔ c.opc.get m = op := by
  refine ⟨Config.get_of_mnemonicOf, ?_⟩
  rintro rfl
  exact hc.mnemonicOf_get m

theorem defaultOpcode_range (m : Mnemonic) : 0 ≤ Config.default.opc.get m ∧ Config.default.opc.get m ≤ 15 := by
  cases m <;> decide

/-- The default numbers follow the order of `Mnemonic.all` and leave no gap. -/
theorem defaultOpcode_surjective (n : Fin Mnemonic.all.length) :
    Config.default.opc.get (Mnemonic.all.get n) = (n.val : Int) := by
  revert n
  decide

/-- Settles O52: numbers are compared as whole cells, and the default numbers are 0 to 15 with no gap. -/
theorem opcodeMatchesTheWholeCell : Obligations.OpcodeMatchesTheWholeCell := by
  refine ⟨fun _ _ _ hc => hc.mnemonicOf_eq_some, fun op => Config.mnemonicOf_eq_none.trans ⟨fun hno => ?_, ?_⟩⟩
  · by_contra hrange
    have hlt : op.toNat < Mnemonic.all.length := by
      have hlen : Mnemonic.all.length = 16 := rfl
      omega
    have hnum := defaultOpcode_surjective ⟨op.toNat, hlt⟩
    exact hno _ (hnum.trans (Int.toNat_of_nonneg (by omega)))
  · intro hout m hm
    have hrange := defaultOpcode_range m
    omega

/-! ### Decoding the cells of an instruction -/

theorem length_encode (c : Config) (i : Instr) : (encode c i).length = 1 + i.mnemonic.arity := by
  simp [encode, i.length_operands, Nat.add_comm]

/-- Decoding where the cells of an instruction stand, the last of them below `count`. -/
theorem decode_of_cellsAt {c : Config} {count : Nat} {read : Int → Option Int} {pc : Int} {i : Instr} (hc : c.WF)
    (hcells : CellsAt read pc (encode c i)) (hlt : pc + i.mnemonic.arity < count) :
    decode c count read pc = .instr i := by
  obtain ⟨hop, hoperands⟩ := hcells
  exact (decode_known hc hop hlt).trans (decodeOperands_of_cellsAt hoperands)

/-- The front of a list stands at its index 0. -/
theorem cellsAt_append (vs ws : List Int) : CellsAt (cellAt (vs ++ ws)) 0 vs := by
  refine cellsAt_of_getElem? fun k v hk => ?_
  obtain ⟨hlt, -⟩ := List.getElem?_eq_some_iff.mp hk
  simpa [cellAt, List.getElem?_append_left hlt] using hk

theorem decodeCells_encode_append {c : Config} (hc : c.WF) (i : Instr) (rest : List Int) :
    decodeCells c (encode c i ++ rest) = .instr i := by
  refine decode_of_cellsAt hc (cellsAt_append (encode c i) rest) ?_
  rw [List.length_append, length_encode]
  omega

/-- Settles O49: the front of the list holds the cells of the instruction, whatever follows. -/
theorem decodeOfEncodeIsTheInstruction : Obligations.DecodeOfEncodeIsTheInstruction :=
  fun _ i rest hc => decodeCells_encode_append hc i rest

/-- Settles O53: each list of cells is decoded under the default parameters. -/
theorem writtenOutCellsDecode : Obligations.WrittenOutCellsDecode := by
  unfold Obligations.WrittenOutCellsDecode
  decide

/-! ### Bits -/

open Machine (wrap wrap_of_inRange) in
/-- The lowest XLEN bits of a packing are its first cell. -/
theorem toInt_ofNat_packCells {xlen : Nat} {v : Int} (h : 1 ≤ xlen) (hv : InRange xlen v) (vs : List Int) :
    (BitVec.ofNat xlen (packCells xlen (v :: vs))).toInt = v := by
  have hlow : BitVec.ofNat xlen (packCells xlen (v :: vs)) = BitVec.ofInt xlen v := by
    apply BitVec.eq_of_toNat_eq
    rw [BitVec.toNat_ofNat, packCells, Nat.add_mul_mod_self_left, Nat.mod_eq_of_lt (BitVec.isLt _)]
  rw [hlow]
  exact wrap_of_inRange h hv

/-- The bits above the lowest XLEN are the packing of the other cells. -/
theorem packCells_cons_div (xlen : Nat) (v : Int) (vs : List Int) :
    packCells xlen (v :: vs) / 2 ^ xlen = packCells xlen vs := by
  rw [packCells, Nat.add_mul_div_left _ _ (Nat.two_pow_pos xlen), Nat.div_eq_of_lt (BitVec.isLt _), Nat.zero_add]

theorem packCells_lt (xlen : Nat) (vs : List Int) : packCells xlen vs < 2 ^ (xlen * vs.length) := by
  induction vs with
  | nil => exact Nat.two_pow_pos _
  | cons v vs ih =>
    rw [List.length_cons, Nat.mul_succ, pow_add, ← Nat.div_lt_iff_lt_mul (Nat.two_pow_pos xlen), packCells_cons_div]
    exact ih

/-- Bits that are all zero are cells that are all zero. -/
theorem wordCells_zero (xlen n : Nat) : wordCells xlen n 0 = List.replicate n 0 := by
  induction n with
  | zero => rfl
  | succ n ih => simp [wordCells, ih, List.replicate_succ]

/-- Unpacking a packing of cell values gives them back, with zeros for the cells beyond it. -/
theorem wordCells_packCells {xlen : Nat} (h : 1 ≤ xlen) (n : Nat) {vs : List Int} (hvs : ∀ v ∈ vs, InRange xlen v) :
    wordCells xlen (vs.length + n) (packCells xlen vs) = vs ++ List.replicate n 0 := by
  induction vs with
  | nil => rw [List.length_nil, Nat.zero_add]; exact wordCells_zero xlen n
  | cons v vs ih =>
    have hv := hvs v List.mem_cons_self
    have htail := ih fun w hw => hvs w (List.mem_cons_of_mem v hw)
    rw [List.length_cons, Nat.succ_add, wordCells, toInt_ofNat_packCells h hv, packCells_cons_div, htail,
      List.cons_append]

theorem Instr.operands_inRange {c : Config} {i : Instr} (h : i.operandsFit c = true) :
    ∀ v ∈ i.operands, InRange c.xlen v := by
  cases i with
  | hlt | pop | add | mul | div | sub | slt | nop => simp [Instr.operands]
  | psh | log | gld | gpt => simpa [Instr.operandsFit, cellFits, Instr.operands] using h
  | mov | set => simpa [Instr.operandsFit, cellFits, Instr.operands] using h
  | ifEq | ifNe => simpa [Instr.operandsFit, cellFits, Instr.operands, and_assoc] using h

theorem encode_inRange {c : Config} {i : Instr} (hc : c.WF) (h : i.operandsFit c = true) :
    ∀ v ∈ encode c i, InRange c.xlen v := by
  obtain ⟨-, -, -, -, -, hopc, -⟩ := hc
  exact List.forall_mem_cons.mpr ⟨hopc _ i.mnemonic.mem_all, Instr.operands_inRange h⟩

/-- An instruction unpacked from its own bits into `maxCells` cells: zeros stand in the cells it does not have. -/
theorem wordCells_encodeWord {c : Config} {i : Instr} (hc : c.WF) (h : i.operandsFit c = true) :
    wordCells c.xlen maxCells (encodeWord c i % 2 ^ (c.xlen * (1 + i.mnemonic.arity))) =
      encode c i ++ List.replicate (3 - i.mnemonic.arity) 0 := by
  have hwidth : 1 ≤ c.xlen := by obtain ⟨hxlen, -⟩ := hc; omega
  have hbits := packCells_lt c.xlen (encode c i)
  rw [length_encode] at hbits
  have hcells : maxCells = (encode c i).length + (3 - i.mnemonic.arity) := by
    have harity := i.mnemonic.arity_le_three
    rw [length_encode, maxCells]
    omega
  rw [encodeWord, Nat.mod_eq_of_lt hbits, hcells]
  exact wordCells_packCells hwidth _ (encode_inRange hc h)

theorem default_wf : Config.default.WF := by decide

/-- Settles O50: the bits unpack to the cells of the instruction with zeros after them, and these decode to it. -/
theorem tableWordRoundTrip : Obligations.TableWordRoundTrip := by
  intro i hfit
  have hcells := wordCells_encodeWord default_wf hfit
  have hdecode := decodeCells_encode_append default_wf i (List.replicate (3 - i.mnemonic.arity) 0)
  rw [← hcells] at hdecode
  have hxlen : Config.default.xlen = 32 := rfl
  rw [hxlen] at hdecode
  simp [decodeTableWord, hxlen, hdecode]

/-! ### What was decoded stands in the store -/

theorem decodeOne_eq_instr {read : Int → Option Int} {k : Int} {f : Int → Instr} {i : Instr} :
    decodeOne read k f = .instr i ↔ ∃ v, read k = some v ∧ f v = i := by
  unfold decodeOne
  cases read k <;> simp

theorem decodeTwo_eq_instr {read : Int → Option Int} {k : Int} {f : Int → Int → Instr} {i : Instr} :
    decodeTwo read k f = .instr i ↔ ∃ v w, read k = some v ∧ read (k + 1) = some w ∧ f v w = i := by
  unfold decodeTwo
  cases read k <;> simp [decodeOne_eq_instr]

theorem decodeThree_eq_instr {read : Int → Option Int} {k : Int} {f : Int → Int → Int → Instr} {i : Instr} :
    decodeThree read k f = .instr i ↔
      ∃ v w x, read k = some v ∧ read (k + 1) = some w ∧ read (k + 1 + 1) = some x ∧ f v w x = i := by
  unfold decodeThree
  cases read k <;> simp [decodeTwo_eq_instr]

/-- The converse of `decodeOperands_of_cellsAt`. -/
theorem cellsAt_of_decodeOperands {read : Int → Option Int} {pc : Int} {m : Mnemonic} {i : Instr}
    (h : decodeOperands read pc m = .instr i) : i.mnemonic = m ∧ CellsAt read (pc + 1) i.operands := by
  cases m with
  | hlt | pop | add | mul | div | sub | slt | nop => cases h; exact ⟨rfl, trivial⟩
  | psh | log | gld | gpt =>
    obtain ⟨v, hv, rfl⟩ := decodeOne_eq_instr.mp h
    exact ⟨rfl, hv, trivial⟩
  | mov | set =>
    obtain ⟨v, w, hv, hw, rfl⟩ := decodeTwo_eq_instr.mp h
    exact ⟨rfl, hv, hw, trivial⟩
  | ifEq | ifNe =>
    obtain ⟨v, w, x, hv, hw, hx, rfl⟩ := decodeThree_eq_instr.mp h
    exact ⟨rfl, hv, hw, hx, trivial⟩

/-- The converse of `decode_of_cellsAt`, in any configuration. -/
theorem cellsAt_of_decode {c : Config} {count : Nat} {read : Int → Option Int} {pc : Int} {i : Instr}
    (h : decode c count read pc = .instr i) : CellsAt read pc (encode c i) ∧ pc + i.mnemonic.arity < count := by
  unfold decode at h
  cases hop : read pc with
  | none => simp [hop] at h
  | some op =>
    cases hm : c.mnemonicOf op with
    | none => simp [hop, hm] at h
    | some m =>
      simp only [hop, hm] at h
      split at h
      · cases h
      · obtain ⟨rfl, hoperands⟩ := cellsAt_of_decodeOperands h
        have hopcode : read pc = some (c.opc.get i.mnemonic) := by rw [hop, Config.get_of_mnemonicOf hm]
        exact ⟨⟨hopcode, hoperands⟩, by omega⟩

/-- The converse of `cellsAt_of_getElem?`. -/
theorem CellsAt.read_getElem? {read : Int → Option Int} {a : Int} {vs : List Int} (h : CellsAt read a vs) {k : Nat}
    {v : Int} (hk : vs[k]? = some v) : read (a + k) = some v := by
  induction vs generalizing a k with
  | nil => cases hk
  | cons w vs ih =>
    obtain ⟨hhead, htail⟩ := h
    cases k with
    | zero =>
      cases hk
      simpa using hhead
    | succ k =>
      have hindex : a + ((k + 1 : Nat) : Int) = a + 1 + k := by omega
      rw [hindex]
      exact ih htail hk

/-- Settles O51: the cells decoded stand in the store in a row, and the last of them lies below `count`. -/
theorem decodedCellsAreTheEncoding : Obligations.DecodedCellsAreTheEncoding := by
  intro c count read pc i h k v hk
  obtain ⟨hcells, hend⟩ := cellsAt_of_decode h
  obtain ⟨hlt, -⟩ := List.getElem?_eq_some_iff.mp hk
  rw [length_encode] at hlt
  exact ⟨hcells.read_getElem? hk, by omega⟩

end Sys2Proof

namespace Sys2Proof.Machine

/-! ### Running what stands in the store -/

/-- Settles O7: what decodes to an instruction lies below `count`, so the step is not exhaustion. -/
theorem stepRunsTheDecodedInstruction : Obligations.StepRunsTheDecodedInstruction :=
  fun _ _ hrun hf => step_of_fetch_instr hrun (pc_lt_count_of_fetch_instr hf) hf

/-- Settles O8: at the cells of an instruction the fetch finds it, and the step runs what it finds. -/
theorem stepRunsAnEncodedInstruction : Obligations.StepRunsAnEncodedInstruction := by
  intro s i hc hrun hcells
  obtain ⟨-, hf⟩ := fetch_encode hc hcells
  exact stepRunsTheDecodedInstruction s i hrun hf

end Sys2Proof.Machine

/-! PROOFS. The frames (40_dispatch_cycle.md R63 to R71): for each part of the state, what a completed instruction makes
of it, said once over the sixteen instructions. With the fault entry beside it, each frame of `exec` follows. -/

namespace Sys2Proof.Machine

/-! ### The Program Store and the parameters -/

/-- `t` has the Program Store, `count` and the parameters of `s`. -/
def SameProgram (s t : State) : Prop := t.prog = s.prog ∧ t.count = s.count ∧ t.cfg = s.cfg

theorem SameProgram.refl {s : State} : SameProgram s s := ⟨rfl, rfl, rfl⟩

theorem Completed.sameProgram {i : Instr} {s t : State} (h : Completed s t i) : SameProgram s t := by
  cases i with
  | hlt | nop => cases h; exact .refl
  | psh v => obtain ⟨-, -, rfl⟩ := h; exact .refl
  | pop => obtain ⟨-, rfl⟩ := h; exact .refl
  | add | sub | mul | div => obtain ⟨left, right, -, -, -, rfl⟩ := h; exact .refl
  | slt => obtain ⟨left, right, -, rfl⟩ := h; exact .refl
  | mov rs rd => obtain ⟨src, dst, -, -, rfl⟩ := h; exact .refl
  | set v imm => obtain ⟨dst, -, rfl⟩ := h; exact .refl
  | log v => obtain ⟨src, -, rfl⟩ := h; exact .refl
  | ifEq v imm tgt | ifNe v imm tgt => obtain ⟨src, -, ⟨-, -, rfl⟩ | ⟨-, rfl⟩⟩ := h <;> exact .refl
  | gld v => obtain ⟨src, -, -, -, rfl⟩ := h; exact .refl
  | gpt v => obtain ⟨dst, top, -, -, -, -, rfl⟩ := h; exact .refl

theorem exec_sameProgram {i : Instr} {s t : State} (h : exec i s = .next t) : SameProgram s t := by
  obtain ⟨c, op, d, -, -, rfl⟩ | hdone := exec_cases h
  · exact .refl
  · exact hdone.sameProgram

theorem FaultTaken.sameProgram {s t : State} (h : FaultTaken s t) : SameProgram s t := by
  obtain ⟨c, op, d, -, rfl⟩ := h
  exact .refl

/-- What the unknown-opcode case answers: the fault, or the one-cell no-op with its report (40_dispatch_cycle.md R68). -/
theorem unknownOpcode_cases {s t : State} {op : Int} (h : s.unknownOpcode op = .next t) :
    s.raiseFault .unknownOpcode op = .next t ∨
      t = (s.startCycle.emit (.unknownOpcode s.pc op)).setPc (s.pc + 1) := by
  cases hpolicy : s.cfg.unknownOpcode with
  | fault => exact .inl (unknownOpcode_of_fault hpolicy ▸ h)
  | skip =>
    rw [unknownOpcode_of_skip hpolicy] at h
    cases h
    exact .inr rfl

/-- Settles O6: no case of the step has the Program Store, `count` or the parameters among its writes. -/
theorem stepLeavesProgramAndParameters : Obligations.StepLeavesProgramAndParameters := by
  intro s t h
  obtain ⟨-, rfl⟩ | ⟨-, -, rfl⟩ | ⟨-, -, i, -, hi⟩ | ⟨-, -, op, -, hop⟩ | ⟨-, -, n, -, hn⟩ := step_cases h
  · exact SameProgram.refl
  · exact SameProgram.refl
  · exact exec_sameProgram hi
  · obtain hraise | rfl := unknownOpcode_cases hop
    · exact (raiseFault_taken hraise).sameProgram
    · exact SameProgram.refl
  · exact (raiseFault_taken hn).sameProgram

/-! ### The registers -/

/-- The instructions that push or pop write SP and IP of the bank, in one update. -/
theorem RegBank.get_sp_ip_other (b : RegBank) (x y : Int) {r : RegName} (hsp : r ≠ .sp) (hip : r ≠ .ip) :
    ({ b with sp := x, ip := y } : RegBank).get r = b.get r :=
  (RegBank.get_set_other (b.set .sp x) .ip r y hip).trans (RegBank.get_set_other b .sp r x hsp)

/-- Arithmetic writes SP, IP, EX and EXA of the bank, in one update. -/
theorem RegBank.get_scratch_other (b : RegBank) (x y ex exa : Int) {r : RegName} (hsp : r ≠ .sp) (hip : r ≠ .ip)
    (hex : r ≠ .ex) (hexa : r ≠ .exa) :
    ({ b with sp := x, ip := y, ex := ex, exa := exa } : RegBank).get r = b.get r := by
  have hscratch := (RegBank.get_set_other (b.set .ex ex) .exa r exa hexa).trans (RegBank.get_set_other b .ex r ex hex)
  exact (RegBank.get_sp_ip_other ((b.set .ex ex).set .exa exa) x y hsp hip).trans hscratch

/-- A register that neither is IP nor is named by the operand stays where the operand's register is written. -/
theorem setReg_advanced_reg {s : State} {u v n : Int} {dst r : RegName} (hdst : NamesData s.cfg u dst) (hip : r ≠ .ip)
    (hr : ¬ NamesData s.cfg u r) : ((s.setReg dst v).advanced n).reg r = s.reg r := by
  obtain ⟨-, -, hother, -⟩ := registerWritten_setReg_advanced s v n hdst.ne_control.1
  exact hother r (fun heq => hr (heq ▸ hdst)) hip

theorem Completed.BranchCompleted.reg_eq {s t : State} {cond : Bool} {tgt : Int} {r : RegName}
    (h : Completed.BranchCompleted s t cond tgt) (hip : r ≠ .ip) : t.reg r = s.reg r := by
  obtain ⟨-, -, rfl⟩ | ⟨-, rfl⟩ := h
  · exact RegBank.get_set_other s.regs .ip r tgt hip
  · exact s.advanced_reg 4 hip

theorem Completed.reg_eq {i : Instr} {s t : State} {r : RegName} (h : Completed s t i) (hr : ¬ MayWrite s.cfg i r) :
    t.reg r = s.reg r := by
  obtain ⟨hip, hrow⟩ := not_or.mp hr
  cases i with
  | hlt => cases h; exact s.advanced_reg 1 hip
  | nop => cases h; exact s.advanced_reg 1 hip
  | psh v => obtain ⟨-, -, rfl⟩ := h; exact s.regs.get_sp_ip_other _ _ hrow hip
  | pop => obtain ⟨-, rfl⟩ := h; exact s.regs.get_sp_ip_other _ _ hrow hip
  | slt => obtain ⟨left, right, -, rfl⟩ := h; exact s.regs.get_sp_ip_other _ _ hrow hip
  | gld v => obtain ⟨src, -, -, -, rfl⟩ := h; exact s.regs.get_sp_ip_other _ _ hrow hip
  | add | sub | mul | div =>
    obtain ⟨hsp, hscratch⟩ := not_or.mp hrow
    obtain ⟨hex, hexa⟩ := not_or.mp hscratch
    obtain ⟨left, right, -, -, -, rfl⟩ := h
    exact s.regs.get_scratch_other _ _ _ _ hsp hip hex hexa
  | mov rs rd => obtain ⟨src, dst, -, hdst, rfl⟩ := h; exact setReg_advanced_reg hdst hip hrow
  | set v imm => obtain ⟨dst, hdst, rfl⟩ := h; exact setReg_advanced_reg hdst hip hrow
  | gpt v => obtain ⟨dst, top, hdst, -, -, -, rfl⟩ := h; exact setReg_advanced_reg hdst hip hrow
  | log v => obtain ⟨src, -, rfl⟩ := h; exact s.advanced_reg 2 hip
  | ifEq v imm tgt | ifNe v imm tgt => obtain ⟨src, -, hb⟩ := h; exact hb.reg_eq hip

/-- Settles O42: a fault writes no register, and a completed instruction those of its row. -/
theorem onlyTheNamedRegistersAreWritten : Obligations.OnlyTheNamedRegistersAreWritten := by
  intro i s t h r hr
  obtain ⟨c, op, d, -, -, rfl⟩ | hdone := exec_cases h
  · rfl
  · exact hdone.reg_eq hr

theorem Completed.sp_eq {i : Instr} {s t : State} (h : Completed s t i) : t.sp = s.sp + spMove i := by
  cases i with
  | psh v => obtain ⟨-, -, rfl⟩ := h; rfl
  | gld v => obtain ⟨src, -, -, -, rfl⟩ := h; rfl
  | pop => obtain ⟨-, rfl⟩ := h; rfl
  | add | sub | mul | div => obtain ⟨left, right, -, -, -, rfl⟩ := h; rfl
  | slt => obtain ⟨left, right, -, rfl⟩ := h; rfl
  | hlt => cases h; exact (Int.add_zero s.sp).symm
  | nop => cases h; exact (Int.add_zero s.sp).symm
  | log v => obtain ⟨src, -, rfl⟩ := h; exact (Int.add_zero s.sp).symm
  | ifEq v imm tgt | ifNe v imm tgt =>
    obtain ⟨src, -, hb⟩ := h
    exact (hb.reg_eq (r := .sp) (by decide)).trans (Int.add_zero s.sp).symm
  | mov rs rd | set rd v | gpt rd =>
    refine (h.reg_eq (r := .sp) ?_).trans (Int.add_zero s.sp).symm
    rintro (hip | hnamed)
    · cases hip
    · exact hnamed.ne_control.2 rfl

/-- Settles O45: a completed instruction moves SP as its row says, and what has not completed has faulted. -/
theorem stackPointerMovesByOnePerPushOrPop : Obligations.StackPointerMovesByOnePerPushOrPop := by
  intro i s t h
  obtain ⟨c, op, d, hop, -, ht⟩ | hdone := exec_cases h
  · exact .inr ⟨c, op, d, hop, ht⟩
  · exact .inl hdone.sp_eq

/-- A completed instruction writes IP by a taken branch to a target of its own, or by the advance. -/
theorem Completed.pc_cases {i : Instr} {s t : State} (h : Completed s t i) :
    (t.branchTaken = true ∧ ∃ r imm tgt, (i = .ifEq r imm tgt ∨ i = .ifNe r imm tgt) ∧ 0 ≤ tgt ∧ t.pc = tgt) ∨
      (t.branchTaken = false ∧ t.pc = s.pc + (1 + i.mnemonic.arity)) := by
  cases i with
  | hlt => cases h; exact .inr ⟨rfl, rfl⟩
  | nop => cases h; exact .inr ⟨rfl, rfl⟩
  | psh v => obtain ⟨-, -, rfl⟩ := h; exact .inr ⟨rfl, rfl⟩
  | pop => obtain ⟨-, rfl⟩ := h; exact .inr ⟨rfl, rfl⟩
  | add | sub | mul | div => obtain ⟨left, right, -, -, -, rfl⟩ := h; exact .inr ⟨rfl, rfl⟩
  | slt => obtain ⟨left, right, -, rfl⟩ := h; exact .inr ⟨rfl, rfl⟩
  | mov rs rd =>
    obtain ⟨src, dst, -, hdst, rfl⟩ := h
    exact .inr ⟨rfl, congrArg (· + 3) (s.setReg_pc _ hdst.ne_control.1)⟩
  | set v imm =>
    obtain ⟨dst, hdst, rfl⟩ := h
    exact .inr ⟨rfl, congrArg (· + 3) (s.setReg_pc _ hdst.ne_control.1)⟩
  | gpt v =>
    obtain ⟨dst, top, hdst, -, -, -, rfl⟩ := h
    exact .inr ⟨rfl, congrArg (· + 2) (s.setReg_pc _ hdst.ne_control.1)⟩
  | log v => obtain ⟨src, -, rfl⟩ := h; exact .inr ⟨rfl, rfl⟩
  | gld v => obtain ⟨src, -, -, -, rfl⟩ := h; exact .inr ⟨rfl, rfl⟩
  | ifEq v imm tgt =>
    obtain ⟨src, -, ⟨-, htgt, rfl⟩ | ⟨-, rfl⟩⟩ := h
    · exact .inl ⟨rfl, v, imm, tgt, .inl rfl, htgt, rfl⟩
    · exact .inr ⟨rfl, rfl⟩
  | ifNe v imm tgt =>
    obtain ⟨src, -, ⟨-, htgt, rfl⟩ | ⟨-, rfl⟩⟩ := h
    · exact .inl ⟨rfl, v, imm, tgt, .inr rfl, htgt, rfl⟩
    · exact .inr ⟨rfl, rfl⟩

/-- Settles O15: an instruction that was run and did not fault has completed. -/
theorem instructionWritesIPExactlyOnce : Obligations.InstructionWritesIPExactlyOnce := by
  intro s t i hrun hf h hok
  rw [step_of_fetch_instr hrun (pc_lt_count_of_fetch_instr hf) hf] at h
  obtain ⟨c, op, d, -, -, rfl⟩ | hdone := exec_cases h
  · exact absurd rfl hok
  · obtain ⟨htaken, r, imm, tgt, hi, -, hpc⟩ | ⟨hfell, hpc⟩ := hdone.pc_cases
    · exact .inl ⟨htaken, r, imm, tgt, hi, hpc⟩
    · exact .inr ⟨hfell, by rw [hpc, Int.add_assoc]⟩

/-! ### The stack -/

/-- A value that instruction `i` has at hand in state `s`: an operand, the value of a register or of a stack cell, a
narrowed result, or the outcome of a comparison. -/
def AtHand (s : State) (i : Instr) (v : Int) : Prop :=
  v ∈ i.operands ∨ (∃ r, v = s.reg r) ∨ (∃ a, s.stack.read a = some v) ∨ (∃ z, v = wrap s.cfg.xlen z) ∨
    ∃ t, v = b2i t

/-- What a completed instruction does to the stack: it stores nothing and SP stays or comes down by one, or it stores a
value that it has at hand to the cell that SP then names (10_state.md R15, 20_memory.md R32). -/
theorem Completed.stack_cases {i : Instr} {s t : State} (h : Completed s t i) :
    (storeIndex i s = none ∧ t.stack = s.stack ∧ (t.sp = s.sp ∨ 0 ≤ s.sp ∧ t.sp = s.sp - 1)) ∨
      ∃ v, storeIndex i s = some t.sp.toNat ∧ t.stack = s.stack.write t.sp.toNat v ∧
        0 ≤ t.sp ∧ t.sp < s.cfg.stackCap ∧ t.sp ≤ s.sp + 1 ∧ AtHand s i v := by
  have hsp := h.sp_eq
  cases i with
  | psh v =>
    obtain ⟨hlow, hroom, rfl⟩ := h
    exact .inr ⟨v, rfl, rfl, (by omega : 0 ≤ s.sp + 1), (by omega : s.sp + 1 < s.cfg.stackCap), le_refl (s.sp + 1),
      .inl (List.mem_singleton.mpr rfl)⟩
  | gld v =>
    obtain ⟨src, -, hlow, hroom, rfl⟩ := h
    exact .inr ⟨s.reg src, rfl, rfl, (by omega : 0 ≤ s.sp + 1), (by omega : s.sp + 1 < s.cfg.stackCap),
      le_refl (s.sp + 1), .inr (.inl ⟨src, rfl⟩)⟩
  | add | sub | mul | div =>
    obtain ⟨left, right, ⟨htwo, hcap, -, -⟩, -, -, rfl⟩ := h
    exact .inr ⟨_, rfl, rfl, (by omega : 0 ≤ s.sp - 1), (by omega : s.sp - 1 < s.cfg.stackCap),
      (by omega : s.sp - 1 ≤ s.sp + 1), .inr (.inr (.inr (.inl ⟨_, rfl⟩)))⟩
  | slt =>
    obtain ⟨left, right, ⟨htwo, hcap, -, -⟩, rfl⟩ := h
    exact .inr ⟨_, rfl, rfl, (by omega : 0 ≤ s.sp - 1), (by omega : s.sp - 1 < s.cfg.stackCap),
      (by omega : s.sp - 1 ≤ s.sp + 1), .inr (.inr (.inr (.inr ⟨_, rfl⟩)))⟩
  | pop => obtain ⟨hlow, rfl⟩ := h; exact .inl ⟨rfl, rfl, .inr ⟨hlow, rfl⟩⟩
  | hlt => cases h; exact .inl ⟨rfl, rfl, .inl rfl⟩
  | nop => cases h; exact .inl ⟨rfl, rfl, .inl rfl⟩
  | log v => obtain ⟨src, -, rfl⟩ := h; exact .inl ⟨rfl, rfl, .inl rfl⟩
  | mov rs rd => obtain ⟨src, dst, -, -, rfl⟩ := h; exact .inl ⟨rfl, rfl, .inl (hsp.trans (Int.add_zero _))⟩
  | set v imm => obtain ⟨dst, -, rfl⟩ := h; exact .inl ⟨rfl, rfl, .inl (hsp.trans (Int.add_zero _))⟩
  | gpt v => obtain ⟨dst, top, -, -, -, -, rfl⟩ := h; exact .inl ⟨rfl, rfl, .inl (hsp.trans (Int.add_zero _))⟩
  | ifEq v imm tgt | ifNe v imm tgt =>
    obtain ⟨src, -, ⟨-, -, rfl⟩ | ⟨-, rfl⟩⟩ := h <;> exact .inl ⟨rfl, rfl, .inl rfl⟩

theorem Completed.read_stack_eq {i : Instr} {s t : State} (h : Completed s t i) {a : Nat}
    (ha : storeIndex i s ≠ some a) : t.stack.read a = s.stack.read a := by
  obtain ⟨-, hstack, -⟩ | ⟨v, hindex, hstack, -⟩ := h.stack_cases
  · rw [hstack]
  · have hother : a ≠ t.sp.toNat := fun heq => ha (heq ▸ hindex)
    rw [hstack, Memory.read_write_other _ _ _ _ hother]

/-- Settles O43: a fault stores nothing, and a completed instruction to the cell of its store index alone. -/
theorem onlyTheStoredStackCellChanges : Obligations.OnlyTheStoredStackCellChanges := by
  intro i s t h
  obtain ⟨hprog, hcount, hcfg⟩ := exec_sameProgram h
  refine ⟨fun a ha => ?_, fun a => by rw [hprog], hcount, hcfg⟩
  obtain ⟨c, op, d, -, -, rfl⟩ | hdone := exec_cases h
  · rfl
  · exact hdone.read_stack_eq ha

/-- Popping with an element on the stack is the read of the top and the move of SP. -/
theorem pop_nonempty {s : State} (h : 0 ≤ s.sp) :
    s.pop = s.stackCell s.sp >>= fun v => .ok (v, s.setSp (s.sp - 1)) := by
  simp [State.pop, raiseIf_neg (Int.not_lt.mpr h)]

/-- Pushing with room on the stack is the store above the top and the move of SP. -/
theorem push_room {s : State} {v : Int} (h : s.sp < (s.cfg.stackCap : Int) - 1) :
    s.push v = s.writeStack (s.sp + 1) v >>= fun t => .ok (t.setSp (s.sp + 1)) := by
  rw [State.push, raiseIf_neg (Int.not_le.mpr h), attempt_bind_ok]

/-- A store does not depend on SP, so moving SP before it is undone by moving it after. -/
theorem writeStack_setSp_bind (s : State) (k v m n : Int) :
    ((s.setSp m).writeStack k v >>= fun t => .ok (t.setSp n) : Attempt State) =
      s.writeStack k v >>= fun t => .ok (t.setSp n) := by
  unfold State.writeStack
  rw [State.setSp_cfg]
  split <;> rfl

/-- Settles O41: read by read, either both abort alike or both go on, and the two end in the same store. -/
theorem binaryOperationIsPopPopPush : Obligations.BinaryOperationIsPopPopPush := by
  intro s f htwo hcap
  have hpop : s.pop = s.stackCell s.sp >>= fun v => .ok (v, s.setSp (s.sp - 1)) := pop_nonempty (by omega)
  have hpop' : (s.setSp (s.sp - 1)).pop =
      s.stackCell (s.sp - 1) >>= fun v => .ok (v, s.setSp (s.sp - 1 - 1)) :=
    pop_nonempty (s := s.setSp (s.sp - 1)) (by rw [State.setSp_sp]; omega)
  have hpush (r : Int) : (s.setSp (s.sp - 1 - 1)).push r =
      s.writeStack (s.sp - 1) r >>= fun t => .ok (t.setSp (s.sp - 1)) := by
    have hroom : s.sp - 1 - 1 < (s.cfg.stackCap : Int) - 1 := by omega
    rw [push_room (s := s.setSp (s.sp - 1 - 1)) hroom, State.setSp_sp, Int.sub_add_cancel, writeStack_setSp_bind]
  rw [hpop, State.replaceTopTwo, raiseIf_neg (Int.not_lt.mpr htwo), attempt_bind_ok]
  cases s.stackCell s.sp with
  | error e => rfl
  | ok right =>
    simp only [attempt_bind_ok, hpop']
    cases s.stackCell (s.sp - 1) with
    | error e => rfl
    | ok left =>
      simp only [attempt_bind_ok, hpush]
      cases f left right with
      | error e => rfl
      | ok r =>
        simp only [attempt_bind_ok]
        cases s.writeStack (s.sp - 1) r <;> rfl

/-! ### The run state, the fault record and the output -/

theorem Completed.run_cases {i : Instr} {s t : State} (h : Completed s t i) :
    (t.run = s.run ∧ t.haltReason = s.haltReason ∧ t.fault = s.fault) ∨
      (i = .hlt ∧ t.run = .halted ∧ t.haltReason = .hlt ∧ t.fault = s.fault) := by
  cases i with
  | hlt => cases h; exact .inr ⟨rfl, rfl, rfl, rfl⟩
  | nop => cases h; exact .inl ⟨rfl, rfl, rfl⟩
  | psh v => obtain ⟨-, -, rfl⟩ := h; exact .inl ⟨rfl, rfl, rfl⟩
  | pop => obtain ⟨-, rfl⟩ := h; exact .inl ⟨rfl, rfl, rfl⟩
  | add | sub | mul | div => obtain ⟨left, right, -, -, -, rfl⟩ := h; exact .inl ⟨rfl, rfl, rfl⟩
  | slt => obtain ⟨left, right, -, rfl⟩ := h; exact .inl ⟨rfl, rfl, rfl⟩
  | mov rs rd => obtain ⟨src, dst, -, -, rfl⟩ := h; exact .inl ⟨rfl, rfl, rfl⟩
  | set v imm => obtain ⟨dst, -, rfl⟩ := h; exact .inl ⟨rfl, rfl, rfl⟩
  | log v => obtain ⟨src, -, rfl⟩ := h; exact .inl ⟨rfl, rfl, rfl⟩
  | ifEq v imm tgt | ifNe v imm tgt =>
    obtain ⟨src, -, ⟨-, -, rfl⟩ | ⟨-, rfl⟩⟩ := h <;> exact .inl ⟨rfl, rfl, rfl⟩
  | gld v => obtain ⟨src, -, -, -, rfl⟩ := h; exact .inl ⟨rfl, rfl, rfl⟩
  | gpt v => obtain ⟨dst, top, -, -, -, -, rfl⟩ := h; exact .inl ⟨rfl, rfl, rfl⟩

/-- Settles O44: of the completed instructions only HLT halts, and none records a fault. -/
theorem runStateChangesOnlyByHltOrFault : Obligations.RunStateChangesOnlyByHltOrFault := by
  intro i s t h
  obtain ⟨c, op, d, hop, -, ht⟩ | hdone := exec_cases h
  · exact .inr (.inr ⟨c, op, d, hop, ht⟩)
  · exact hdone.run_cases.imp_right .inl

/-- A diagnostic event is invisible in the program output (10_state.md R23). -/
theorem programOutput_append_diagnostic {e : Event} (out : List Event) (h : e.isProgram = false) :
    programOutput (out ++ [e]) = programOutput out := by
  simp [programOutput, h]

theorem programOutput_append_log (out : List Event) (v : Int) :
    programOutput (out ++ [.log v]) = programOutput out ++ [.log v] := by
  simp [programOutput, Event.isProgram]

theorem Completed.ArithCompleted.programOutput_eq {s t : State} {op : ArithOp} {f : Int → Int → Int}
    (h : Completed.ArithCompleted s t op f) : programOutput t.out = programOutput s.out := by
  obtain ⟨left, right, -, -, -, rfl⟩ := h
  exact programOutput_append_diagnostic s.out rfl

/-- Of the instructions that are not silent, only LOG reports in class P. -/
theorem Completed.programOutput_cases {i : Instr} {s t : State} (h : Completed s t i) :
    programOutput t.out = programOutput s.out ∨
      ∃ v r, i = .log v ∧ NamesData s.cfg v r ∧ programOutput t.out = programOutput s.out ++ [.log (s.reg r)] := by
  obtain hsame | ⟨hloud, -⟩ := h.out_cases
  · exact .inl (congrArg programOutput hsame)
  · cases i with
    | hlt => cases h; exact .inl (programOutput_append_diagnostic s.out rfl)
    | nop => cases h; exact .inl (programOutput_append_diagnostic s.out rfl)
    | add | sub | mul | div => exact .inl (Completed.ArithCompleted.programOutput_eq h)
    | log v =>
      obtain ⟨src, hsrc, rfl⟩ := h
      exact .inr ⟨v, src, rfl, hsrc, programOutput_append_log s.out (s.reg src)⟩
    | psh | pop | slt | mov | set | ifEq | ifNe | gld | gpt => simp [Instr.mnemonic] at hloud

/-- Settles O46: the `Fault` event is a diagnostic, and so is every event of a completed instruction but LOG's. -/
theorem onlyLogWritesProgramOutput : Obligations.OnlyLogWritesProgramOutput := by
  intro i s t h
  obtain ⟨c, op, d, -, -, rfl⟩ | hdone := exec_cases h
  · exact .inl (programOutput_append_diagnostic s.out rfl)
  · exact hdone.programOutput_cases

/-! ### The causes of faults -/

/-- Settles O35: a newly recorded fault was taken, for a completed instruction records none. -/
theorem eachCauseComesOnlyFromItsInstructions : Obligations.EachCauseComesOnlyFromItsInstructions := by
  intro i s t f h ht hs
  obtain ⟨c, op, d, hop, hraiser, rfl⟩ | hdone := exec_cases h
  · cases ht
    exact ⟨hraiser, rfl, hop⟩
  · obtain ⟨hsame, -⟩ := hdone.fault_and_haltReason
    exact absurd (hsame.symm.trans ht) hs

theorem raiseFault_cause {s t : State} {c : Cause} {d : Int} {f : FaultRecord} (h : s.raiseFault c d = .next t)
    (ht : t.fault = some f) : f.cause = c := by
  obtain ⟨op, -, rfl⟩ := raiseFault_eq_next.mp h
  cases ht
  rfl

/-- The binary operation raises ArithmeticOverflow only under OVERFLOW = fault, unless its check does. -/
theorem binop_raises_overflow {s : State} {op : ArithOp} {check : Int → Int → Attempt Unit} {f : Int → Int → Int}
    {d : Int} (hcheck : ∀ left right, check left right ≠ .error (.raise .arithmeticOverflow d))
    (h : s.binop op check f = .error (.raise .arithmeticOverflow d)) : s.cfg.overflow = .fault := by
  obtain ⟨-, hcause, -⟩ | ⟨left, right, -, hraise | ⟨⟨-, hpolicy⟩, -, -⟩⟩ := binop_eq_raise h
  · cases hcause
  · exact absurd hraise (hcheck left right)
  · exact hpolicy

theorem binop_fault {s t : State} {op : ArithOp} {check : Int → Int → Attempt Unit} {f : Int → Int → Int}
    (h : s.binop op check f = .ok t) : t.fault = s.fault := by
  obtain ⟨left, right, -, -, -, rfl⟩ := binop_eq_ok.mp h
  rfl

theorem perform_binop_newOverflow {s t : State} {m : Mnemonic} {op : ArithOp} {check : Int → Int → Attempt Unit}
    {g : Int → Int → Int} {f : FaultRecord}
    (hcheck : ∀ left right d, check left right ≠ .error (.raise .arithmeticOverflow d))
    (h : s.perform m (fun s => s.binop op check g) = .next t) (hs : s.fault ≠ some f) (ht : t.fault = some f)
    (hcause : f.cause = .arithmeticOverflow) : s.cfg.overflow = .fault := by
  have hraise := perform_newFault (fun _ => binop_fault) h hs ht
  rw [hcause] at hraise
  exact binop_raises_overflow (s := s.startCycle) (fun left right => hcheck left right f.info) hraise

theorem noCheck_ne_overflow (left right d : Int) : noCheck left right ≠ .error (.raise .arithmeticOverflow d) := nofun

theorem zeroDivisor_ne_overflow (left right d : Int) :
    zeroDivisor left right ≠ .error (.raise .arithmeticOverflow d) := by
  intro h
  obtain ⟨-, he⟩ := (raiseIf_eq_error _ _ _ _).mp h
  cases he

/-- An instruction newly records ArithmeticOverflow only under OVERFLOW = fault (42_arith.md R91). -/
theorem exec_newOverflow_policy {i : Instr} {s t : State} {f : FaultRecord} (h : exec i s = .next t)
    (hs : s.fault ≠ some f) (ht : t.fault = some f) (hcause : f.cause = .arithmeticOverflow) :
    s.cfg.overflow = .fault := by
  have hraiser : i.mnemonic ∈ raisers .arithmeticOverflow := hcause ▸ exec_newFault_cause h hs ht
  cases i with
  | add => exact perform_binop_newOverflow noCheck_ne_overflow (exec_add s ▸ h) hs ht hcause
  | sub => exact perform_binop_newOverflow noCheck_ne_overflow (exec_sub s ▸ h) hs ht hcause
  | mul => exact perform_binop_newOverflow noCheck_ne_overflow (exec_mul s ▸ h) hs ht hcause
  | div => exact perform_binop_newOverflow zeroDivisor_ne_overflow (exec_div s ▸ h) hs ht hcause
  | _ => simp [Instr.mnemonic, raisers] at hraiser

/-- Settles O36: the cycle's own faults have their own causes, and under OVERFLOW = wrap no instruction has this one. -/
theorem wrapPolicyNeverOverflows : Obligations.WrapPolicyNeverOverflows := by
  intro s t f hpolicy hnone h ht hcause
  obtain ⟨-, rfl⟩ | ⟨-, -, rfl⟩ | ⟨-, -, i, -, hi⟩ | ⟨-, -, op, -, hop⟩ | ⟨-, -, n, -, hn⟩ := step_cases h
  · cases hnone.symm.trans ht
  · cases hnone.symm.trans ht
  · have hs : s.fault ≠ some f := by simp [hnone]
    cases hpolicy.symm.trans (exec_newOverflow_policy hi hs ht hcause)
  · obtain hraise | rfl := unknownOpcode_cases hop
    · cases hcause.symm.trans (raiseFault_cause hraise ht)
    · cases hnone.symm.trans ht
  · cases hcause.symm.trans (raiseFault_cause hn ht)

end Sys2Proof.Machine

/-! PROOFS. The run and its invariant (10_state.md section 8, R26). First widths, and what decoding needs of the store;
then the cases of the cycle that run no instruction; then loading, and the invariant where it begins; then that a step
keeps it, part by part of the state; then that a state that meets it always steps. -/

namespace Sys2Proof

/-! ### Configurations and decoding -/

/-- Every well-formed width has room for -1, 0 and 1 (00_scope.md R4). -/
theorem Config.WF.two_le_xlen {c : Config} (h : c.WF) : 2 ≤ c.xlen := by
  obtain ⟨hxlen, -⟩ := h
  omega

/-- Operand cells that can be read are decoded to an instruction. -/
theorem decodeOperands_of_read {read : Int → Option Int} {pc : Int} {m : Mnemonic}
    (h : ∀ k, pc < k → k ≤ pc + m.arity → ∃ v, read k = some v) : ∃ i, decodeOperands read pc m = .instr i := by
  cases m with
  | hlt | pop | add | mul | div | sub | slt | nop => exact ⟨_, rfl⟩
  | psh | log | gld | gpt =>
    obtain ⟨v, hv⟩ := h (pc + 1) (by omega) (le_refl (pc + 1))
    exact ⟨_, decodeOne_eq_instr.mpr ⟨v, hv, rfl⟩⟩
  | mov | set =>
    obtain ⟨v, hv⟩ := h (pc + 1) (by omega) (by omega : pc + 1 ≤ pc + 2)
    obtain ⟨w, hw⟩ := h (pc + 1 + 1) (by omega) (by omega : pc + 1 + 1 ≤ pc + 2)
    exact ⟨_, decodeTwo_eq_instr.mpr ⟨v, w, hv, hw, rfl⟩⟩
  | ifEq | ifNe =>
    obtain ⟨v, hv⟩ := h (pc + 1) (by omega) (by omega : pc + 1 ≤ pc + 3)
    obtain ⟨w, hw⟩ := h (pc + 1 + 1) (by omega) (by omega : pc + 1 + 1 ≤ pc + 3)
    obtain ⟨x, hx⟩ := h (pc + 1 + 1 + 1) (by omega) (by omega : pc + 1 + 1 + 1 ≤ pc + 3)
    exact ⟨_, decodeThree_eq_instr.mpr ⟨v, w, x, hv, hw, hx, rfl⟩⟩

/-- Where every cell from `pc` up to `count` can be read, decoding at `pc` misses none. -/
theorem decode_ne_absent {c : Config} {count : Nat} {read : Int → Option Int} {pc : Int} (hlt : pc < count)
    (h : ∀ k, pc ≤ k → k < count → ∃ v, read k = some v) (index : Int) : decode c count read pc ≠ .absent index := by
  obtain ⟨op, hop⟩ := h pc (Int.le_refl pc) hlt
  simp only [decode, hop]
  cases c.mnemonicOf op with
  | none => nofun
  | some m =>
    dsimp only
    split
    · nofun
    · rename_i hend
      obtain ⟨i, hi⟩ := decodeOperands_of_read (pc := pc) (m := m) fun k hlow hhigh => h k (by omega) (by omega)
      rw [hi]
      nofun

end Sys2Proof

namespace Sys2Proof.Machine

/-! ### Halting, exhaustion and the cause numbers -/

/-- Settles O9: the step looks at `run` first (log 6). -/
theorem haltedStateIsFrozen : Obligations.HaltedStateIsFrozen := by
  intro s hrun
  simp [step, hrun]

/-- Settles O10: exhaustion writes the halt and, at the start of the cycle, `branch_taken` (log 8). -/
theorem runningOffTheEndHaltsExhausted : Obligations.RunningOffTheEndHaltsExhausted :=
  fun _ hrun hend => step_exhausted hrun hend

/-- Settles O37: the table of codes, row by row. -/
theorem causeCodesAreTheTable : Obligations.CauseCodesAreTheTable :=
  ⟨rfl, rfl, rfl, rfl, rfl, rfl, rfl, rfl, rfl⟩

/-! ### Loading -/

/-- Writing a list leaves the cells below where it starts. -/
theorem Memory.read_writeList_below (m : Memory) {a n : Nat} (vs : List Int) (h : n < a) :
    (m.writeList a vs).read n = m.read n := by
  induction vs generalizing m a with
  | nil => rfl
  | cons v vs ih =>
    rw [Memory.writeList, ih (m.write a v) (Nat.lt_succ_of_lt h), Memory.read_write_other m a n v (Nat.ne_of_lt h)]

/-- From where a list was written on, the store reads as the list, and beyond it as before. -/
theorem Memory.read_writeList (m : Memory) (a k : Nat) (vs : List Int) :
    (m.writeList a vs).read (a + k) = vs[k]?.or (m.read (a + k)) := by
  induction vs generalizing m a k with
  | nil => rfl
  | cons v vs ih =>
    cases k with
    | zero => simp [Memory.writeList, Memory.read_writeList_below]
    | succ k =>
      have hindex : a + (k + 1) = a + 1 + k := by omega
      rw [Memory.writeList, hindex, ih, Memory.read_write_other _ _ _ _ (by omega), List.getElem?_cons_succ]

theorem read_loaded (cfg : Config) (cells : List Int) (n : Nat) : (State.loaded cfg cells).prog.read n = cells[n]? := by
  have hread := Memory.read_writeList [] 0 n cells
  rwa [Nat.zero_add, Memory.read_nil, Option.or_none] at hread

theorem progCell_loaded (cfg : Config) (cells : List Int) (k : Int) :
    (State.loaded cfg cells).progCell k = cellAt cells k := by
  have hcount : (State.loaded cfg cells).count = cells.length := rfl
  unfold State.progCell cellAt
  rw [read_loaded, hcount]
  by_cases hlow : 0 ≤ k
  · by_cases hhigh : k < cells.length
    · rw [if_pos ⟨hlow, hhigh⟩, if_pos hlow]
    · rw [if_neg (fun h => hhigh h.2), if_pos hlow, List.getElem?_eq_none (by omega)]
  · rw [if_neg (fun h => hlow h.1), if_neg hlow]

/-- Settles O2: the loaded store is the list of cells, index by index. -/
theorem loadedProgramReadsBackInOrder : Obligations.LoadedProgramReadsBackInOrder :=
  fun cfg cells k => ⟨progCell_loaded cfg cells k, rfl⟩

/-! ### The invariant at reset -/

/-- The values -1, 0 and 1 are cell values from width 2 on. -/
theorem inRange_of_small {xlen : Nat} {v : Int} (h : 2 ≤ xlen) (hlow : -1 ≤ v) (hhigh : v ≤ 1) : InRange xlen v := by
  have hpow : 2 ^ 1 ≤ 2 ^ (xlen - 1) := Nat.pow_le_pow_right (by decide) (by omega)
  simp only [InRange, cellMin, cellMax]
  omega

/-- The register bank that reset leaves holds cell values. -/
theorem resetWith_reg_inRange {cfg : Config} (hc : cfg.WF) (prog : Memory) (count draws : Nat) (r : RegName) :
    InRange cfg.xlen ((State.resetWith cfg prog count draws).reg r) := by
  have hzero : InRange cfg.xlen 0 := inRange_of_small hc.two_le_xlen (by decide) (by decide)
  have hminus : InRange cfg.xlen (-1) := inRange_of_small hc.two_le_xlen (by decide) (by decide)
  cases r with
  | sp => exact hminus
  | _ => exact hzero

theorem loaded_hostDuty {cfg : Config} {cells : List Int} (hlen : cells.length ≤ cfg.progMax)
    (hcells : ∀ v ∈ cells, InRange cfg.xlen v) :
    HostDuty cfg (State.loaded cfg cells).prog (State.loaded cfg cells).count where
  canonical := Memory.writeList_wf [] 0 cells .nil
  bounded := hlen
  filled n hn := by
    have hn : n < cells.length := hn
    refine ⟨cells[n], ?_, hcells _ (List.getElem_mem hn)⟩
    rw [read_loaded, List.getElem?_eq_getElem hn]

theorem loaded_inv {cfg : Config} {cells : List Int} (hc : cfg.WF) (hlen : cells.length ≤ cfg.progMax)
    (hcells : ∀ v ∈ cells, InRange cfg.xlen v) : (State.loaded cfg cells).Inv where
  config := hc
  host := loaded_hostDuty hlen hcells
  regsFit := resetWith_reg_inRange hc _ _ _
  ipRange := ⟨Int.le_refl 0, (resetWith_reg_inRange hc [] 0 0 .ip).2⟩
  spRange := ⟨Int.le_refl (-1), (by omega : (-1 : Int) ≤ (cfg.stackCap : Int) - 1)⟩
  stackCanonical := .nil
  stackFits := fun _ _ h => by cases h
  liveWritten := fun n h => by
    have h : (n : Int) ≤ -1 := h
    omega
  faultRecorded := iff_of_true rfl (by simp [State.loaded])
  haltExplained := iff_of_false (by simp [State.loaded]) (by simp [State.loaded])

/-- Settles O3: the reset state is the empty program loaded under the default parameters. -/
theorem resetMeetsTheInvariant : Obligations.ResetMeetsTheInvariant :=
  ⟨loaded_inv (cells := []) default_wf (Nat.zero_le _) (fun _ h => by cases h), fun _ _ => loaded_inv⟩

/-! ### The parts of the invariant -/

/-- What the invariant says of SP and the stack (10_state.md R15, R18). -/
structure StackGood (c : Config) (sp : Int) (m : Memory) : Prop where
  range : -1 ≤ sp ∧ sp ≤ (c.stackCap : Int) - 1
  canonical : m.wf
  fits : ∀ n v, m.read n = some v → n < c.stackCap ∧ InRange c.xlen v
  live : ∀ n : Nat, (n : Int) ≤ sp → ∃ v, m.read n = some v

theorem StackGood.pop {c : Config} {sp : Int} {m : Memory} (h : StackGood c sp m) (hlow : 0 ≤ sp) :
    StackGood c (sp - 1) m where
  range := by have hrange := h.range; omega
  canonical := h.canonical
  fits := h.fits
  live n hn := h.live n (by omega)

/-- Storing a cell value to the cell `k` and leaving SP there: every cell below `k` was live before. -/
theorem StackGood.store {c : Config} {sp k v : Int} {m : Memory} (h : StackGood c sp m) (hlow : 0 ≤ k)
    (hcap : k < c.stackCap) (hsp : k ≤ sp + 1) (hv : InRange c.xlen v) : StackGood c k (m.write k.toNat v) where
  range := by omega
  canonical := Memory.write_wf m _ v h.canonical
  fits n w hw := by
    rw [Memory.read_write] at hw
    split at hw
    · cases hw
      exact ⟨by omega, hv⟩
    · exact h.fits n w hw
  live n hn := by
    rw [Memory.read_write]
    split
    · exact ⟨v, rfl⟩
    · exact h.live n (by omega)

/-- What the invariant says of the halt and the fault record (10_state.md R20, R22). -/
def HaltGood (s : State) : Prop :=
  (s.fault = none ↔ s.haltReason ≠ .fault) ∧ (s.run = .halted ↔ s.haltReason ≠ .none)

theorem State.Inv.stackGood {s : State} (hs : s.Inv) : StackGood s.cfg s.sp s.stack :=
  ⟨hs.spRange, hs.stackCanonical, hs.stackFits, hs.liveWritten⟩

theorem State.Inv.haltGood {s : State} (hs : s.Inv) : HaltGood s := ⟨hs.faultRecorded, hs.haltExplained⟩

/-- A running state has not halted for any reason and holds no fault record. -/
theorem State.Inv.of_running {s : State} (hs : s.Inv) (hrun : s.run = .running) :
    s.haltReason = .none ∧ s.fault = none := by
  have hreason : s.haltReason = .none := by
    by_contra hne
    cases hrun.symm.trans (hs.haltExplained.mpr hne)
  exact ⟨hreason, hs.faultRecorded.mpr (by simp [hreason])⟩

/-- The invariant from its parts, over a store and parameters that have not changed. -/
theorem State.Inv.of_parts {s t : State} (hs : s.Inv) (hprog : SameProgram s t)
    (hregs : ∀ r, InRange s.cfg.xlen (t.reg r)) (hpc : 0 ≤ t.pc) (hstack : StackGood s.cfg t.sp t.stack)
    (hhalt : HaltGood t) : t.Inv := by
  obtain ⟨hp, hn, hc⟩ := hprog
  rw [← hc] at hregs hstack
  exact {
    config := hc ▸ hs.config
    host := by rw [hp, hn, hc]; exact hs.host
    regsFit := hregs
    ipRange := ⟨hpc, (hregs .ip).2⟩
    spRange := hstack.range
    stackCanonical := hstack.canonical
    stackFits := hstack.fits
    liveWritten := hstack.live
    faultRecorded := hhalt.1
    haltExplained := hhalt.2 }

/-! ### Cell values under the invariant -/

/-- What can be read in the Program Store is a cell value (50_interfaces.md R116). -/
theorem State.Inv.progCell_inRange {s : State} (hs : s.Inv) {k v : Int} (h : s.progCell k = some v) :
    InRange s.cfg.xlen v := by
  obtain ⟨hlow, hhigh, hread⟩ := progCell_eq_some.mp h
  obtain ⟨w, hw, hfits⟩ := hs.host.filled k.toNat (by omega)
  obtain rfl : v = w := Option.some.inj (hread.symm.trans hw)
  exact hfits

/-- The operands of a fetched instruction are cell values: they stand in the Program Store. -/
theorem State.Inv.operands_inRange {s : State} (hs : s.Inv) {i : Instr} (hf : s.fetch = .instr i) :
    ∀ v ∈ i.operands, InRange s.cfg.xlen v := by
  intro v hv
  obtain ⟨⟨-, hoperands⟩, -⟩ := cellsAt_of_decode hf
  obtain ⟨k, hk⟩ := List.mem_iff_getElem?.mp hv
  exact hs.progCell_inRange (hoperands.read_getElem? hk)

/-- Every index up to `count` is a cell value: `count` is at most PROG_MAX (10_state.md R14). -/
theorem State.Inv.index_inRange {s : State} (hs : s.Inv) {n : Int} (hlow : 0 ≤ n) (hhigh : n ≤ s.count) :
    InRange s.cfg.xlen n := by
  obtain ⟨-, -, -, -, -, -, hmax⟩ := hs.config
  have hbound := hs.host.bounded
  obtain ⟨hmin, -⟩ : InRange s.cfg.xlen 0 :=
    inRange_of_small hs.config.two_le_xlen (by decide) (by decide)
  exact ⟨by omega, by omega⟩

/-- Every value in the range of SP is a cell value: STACK_CAP is at most MAX (10_state.md R15). -/
theorem State.Inv.sp_inRange {s : State} (hs : s.Inv) {sp : Int} {m : Memory} (h : StackGood s.cfg sp m) :
    InRange s.cfg.xlen sp := by
  obtain ⟨-, -, hcap, -⟩ := hs.config
  obtain ⟨hmin, -⟩ : InRange s.cfg.xlen (-1) :=
    inRange_of_small hs.config.two_le_xlen (by decide) (by decide)
  have hrange := h.range
  exact ⟨by omega, by omega⟩

theorem AtHand.inRange {s : State} {i : Instr} {v : Int} (h : AtHand s i v) (hs : s.Inv)
    (hoperands : ∀ w ∈ i.operands, InRange s.cfg.xlen w) : InRange s.cfg.xlen v := by
  obtain hv | ⟨r, rfl⟩ | ⟨a, ha⟩ | ⟨z, rfl⟩ | ⟨t, rfl⟩ := h
  · exact hoperands v hv
  · exact hs.regsFit r
  · exact (hs.stackFits a v ha).2
  · exact wrap_inRange s.cfg.xlen z
  · have hwidth := hs.config.two_le_xlen
    cases t
    · exact inRange_of_small hwidth (by decide) (by decide)
    · exact inRange_of_small hwidth (by decide) (by decide)

/-- Where a value at hand is written to a data register, every register but IP holds a value at hand. -/
theorem setReg_advanced_atHand {s : State} {i : Instr} {v n : Int} {dst r : RegName} (hv : AtHand s i v)
    (hdst : dst ≠ .ip) (hip : r ≠ .ip) : AtHand s i (((s.setReg dst v).advanced n).reg r) := by
  obtain ⟨hwritten, -, hother, -⟩ := registerWritten_setReg_advanced s v n hdst
  by_cases hr : r = dst
  · rwa [hr, hwritten]
  · exact .inr (.inl ⟨r, hother r hr hip⟩)

/-- What a completed instruction leaves in a register other than IP and SP it had at hand. -/
theorem Completed.reg_atHand {i : Instr} {s t : State} {r : RegName} (h : Completed s t i) (hip : r ≠ .ip)
    (hsp : r ≠ .sp) : AtHand s i (t.reg r) := by
  cases i with
  | mov rs rd =>
    obtain ⟨src, dst, -, hdst, rfl⟩ := h
    exact setReg_advanced_atHand (.inr (.inl ⟨src, rfl⟩)) hdst.ne_control.1 hip
  | set v imm =>
    obtain ⟨dst, hdst, rfl⟩ := h
    exact setReg_advanced_atHand (.inl (by simp [Instr.operands])) hdst.ne_control.1 hip
  | gpt v =>
    obtain ⟨dst, top, hdst, -, -, htop, rfl⟩ := h
    exact setReg_advanced_atHand (.inr (.inr (.inl ⟨_, htop⟩))) hdst.ne_control.1 hip
  | add | sub | mul | div =>
    by_cases hscratch : r = .ex ∨ r = .exa
    · obtain ⟨left, right, -, -, -, rfl⟩ := h
      obtain rfl | rfl := hscratch
      · exact .inr (.inr (.inr (.inl ⟨_, rfl⟩)))
      · exact .inr (.inr (.inr (.inl ⟨_, rfl⟩)))
    · obtain ⟨hex, hexa⟩ := not_or.mp hscratch
      exact .inr (.inl ⟨r, h.reg_eq (by simp [MayWrite, hip, hsp, hex, hexa])⟩)
  | hlt | psh | pop | slt | log | ifEq | ifNe | gld | nop =>
    exact .inr (.inl ⟨r, h.reg_eq (by simp [MayWrite, hip, hsp])⟩)

/-! ### A step keeps the invariant -/

theorem Completed.stackGood {i : Instr} {s t : State} (h : Completed s t i) (hs : s.Inv)
    (hoperands : ∀ v ∈ i.operands, InRange s.cfg.xlen v) : StackGood s.cfg t.sp t.stack := by
  obtain ⟨-, hstack, hsp | ⟨hlow, hsp⟩⟩ | ⟨v, -, hstack, hlow, hcap, hsp, hv⟩ := h.stack_cases
  · rw [hstack, hsp]
    exact hs.stackGood
  · rw [hstack, hsp]
    exact hs.stackGood.pop hlow
  · rw [hstack]
    exact hs.stackGood.store hlow hcap hsp (hv.inRange hs hoperands)

/-- A completed instruction leaves IP at a branch target, which is an operand, or at most at `count`. -/
theorem Completed.pc_good {i : Instr} {s t : State} (h : Completed s t i) (hs : s.Inv)
    (hoperands : ∀ v ∈ i.operands, InRange s.cfg.xlen v) (hend : s.pc + i.mnemonic.arity < s.count) :
    0 ≤ t.pc ∧ InRange s.cfg.xlen t.pc := by
  obtain ⟨-, r, imm, tgt, hi, htgt, hpc⟩ | ⟨-, hpc⟩ := h.pc_cases
  · rw [hpc]
    refine ⟨htgt, hoperands tgt ?_⟩
    obtain rfl | rfl := hi
    · simp [Instr.operands]
    · simp [Instr.operands]
  · obtain ⟨hlow, -⟩ := hs.ipRange
    rw [hpc]
    exact ⟨by omega, hs.index_inRange (by omega) (by omega)⟩

theorem Completed.haltGood {i : Instr} {s t : State} (h : Completed s t i) (hs : HaltGood s) (hnone : s.fault = none) :
    HaltGood t := by
  obtain ⟨hrun, hreason, hfault⟩ | ⟨-, hrun, hreason, hfault⟩ := h.run_cases
  · rwa [HaltGood, hrun, hreason, hfault]
  · simp [HaltGood, hrun, hreason, hfault, hnone]

theorem Completed.inv {i : Instr} {s t : State} (h : Completed s t i) (hs : s.Inv) (hrun : s.run = .running)
    (hf : s.fetch = .instr i) : t.Inv := by
  have hoperands := hs.operands_inRange hf
  have hstack := h.stackGood hs hoperands
  obtain ⟨-, hend⟩ := cellsAt_of_decode hf
  obtain ⟨hpc, hpcFits⟩ := h.pc_good hs hoperands hend
  obtain ⟨-, hnone⟩ := hs.of_running hrun
  refine hs.of_parts h.sameProgram (fun r => ?_) hpc hstack (h.haltGood hs.haltGood hnone)
  by_cases hip : r = .ip
  · rw [hip]
    exact hpcFits
  · by_cases hsp : r = .sp
    · rw [hsp]
      exact hs.sp_inRange hstack
    · exact (h.reg_atHand hip hsp).inRange hs hoperands

/-- Taking a fault keeps the invariant: it writes the record and the halt alone. -/
theorem FaultTaken.inv {s t : State} (h : FaultTaken s t) (hs : s.Inv) : t.Inv := by
  obtain ⟨c, op, d, -, rfl⟩ := h
  exact hs.of_parts .refl hs.regsFit hs.ipRange.1 hs.stackGood (by simp [HaltGood, faultState])

theorem exhaust_inv {s : State} (hs : s.Inv) (hrun : s.run = .running) : s.exhaust.Inv := by
  obtain ⟨-, hnone⟩ := hs.of_running hrun
  exact hs.of_parts .refl hs.regsFit hs.ipRange.1 hs.stackGood (by simp [HaltGood, hnone])

/-- Skipping an unknown opcode below `count` keeps the invariant. -/
theorem skip_inv {s : State} (hs : s.Inv) (hlt : s.pc < s.count) (e : Event) :
    ((s.startCycle.emit e).setPc (s.pc + 1)).Inv := by
  obtain ⟨hlow, -⟩ := hs.ipRange
  have hpc : 0 ≤ s.pc + 1 := by omega
  have hend : s.pc + 1 ≤ s.count := by omega
  refine hs.of_parts .refl (fun r => ?_) hpc hs.stackGood hs.haltGood
  by_cases hip : r = .ip
  · rw [hip]
    exact hs.index_inRange hpc hend
  · have hsame : ((s.startCycle.emit e).setPc (s.pc + 1)).reg r = s.reg r :=
      RegBank.get_set_other s.regs .ip r (s.pc + 1) hip
    rw [hsame]
    exact hs.regsFit r

/-- Settles O4, by the inversion of the step: each of its cases keeps each part of the invariant. -/
theorem everyStepKeepsTheInvariant : Obligations.EveryStepKeepsTheInvariant := by
  intro s t hs h
  obtain ⟨-, rfl⟩ | ⟨hrun, -, rfl⟩ | ⟨hrun, -, i, hf, hi⟩ | ⟨-, hlt, op, -, hop⟩ | ⟨-, -, n, -, hn⟩ := step_cases h
  · exact hs
  · exact exhaust_inv hs hrun
  · obtain ⟨c, op, d, hop, -, ht⟩ | hdone := exec_cases hi
    · exact FaultTaken.inv ⟨c, op, d, hop, ht⟩ hs
    · exact hdone.inv hs hrun hf
  · obtain hraise | rfl := unknownOpcode_cases hop
    · exact (raiseFault_taken hraise).inv hs
    · exact skip_inv hs hlt _
  · exact (raiseFault_taken hn).inv hs

/-! ### A good state steps -/

/-- The program cells at and after IP can be read, up to `count`. -/
theorem State.Inv.progCell_of_lt {s : State} (hs : s.Inv) {k : Int} (hlow : s.pc ≤ k) (hhigh : k < s.count) :
    ∃ v, s.progCell k = some v := by
  obtain ⟨hpc, -⟩ := hs.ipRange
  obtain ⟨v, hv, -⟩ := hs.host.filled k.toNat (by omega)
  exact ⟨v, progCell_eq_some.mpr ⟨by omega, hhigh, hv⟩⟩

theorem State.Inv.topTwo {s : State} (hs : s.Inv) (h : 1 ≤ s.sp) : ∃ left right, TopTwo s left right := by
  obtain ⟨-, hcap⟩ := hs.spRange
  obtain ⟨right, hright⟩ := hs.liveWritten s.sp.toNat (by omega)
  obtain ⟨left, hleft⟩ := hs.liveWritten (s.sp - 1).toNat (by omega)
  exact ⟨left, right, h, by omega, hright, hleft⟩

/-- Running `i` at `s` answers a next state. -/
def Answers (i : Instr) (s : State) : Prop := ∃ t, exec i s = .next t

theorem ExecFaults.answers {i : Instr} {s : State} {c : Cause} {d op : Int} (h : ExecFaults i s c d)
    (hop : s.progCell s.pc = some op) : Answers i s := ⟨_, h op hop⟩

/-- A register operand names nothing, a control register or a data register (30_encoding.md R54). -/
theorem operand_cases (c : Config) (v : Int) : NamesNothing v ∨ NamesControl c v ∨ ∃ r, NamesData c v r := by
  by_cases hout : NamesNothing v
  · exact .inl hout
  · obtain ⟨hlow, hhigh⟩ := not_or.mp hout
    have hlow : 0 ≤ v := Int.not_lt.mp hlow
    have hlt : v.toNat < 12 := by omega
    have hr : c.regAt[v.toNat]? = some c.regAt[v.toNat] := Vector.getElem?_eq_getElem hlt
    cases hcontrol : c.regAt[v.toNat].isControl with
    | true => exact .inr (.inl ⟨hlow, _, hr, hcontrol⟩)
    | false => exact .inr (.inr ⟨_, hlow, hr, hcontrol⟩)

section
variable {i : Instr} {s : State} {op : Int}

/-- An instruction that checks an operand first answers the fault, or what it answers past the check. -/
theorem answers_of_registerRule {v : Int} (hop : s.progCell s.pc = some op) (hfault : RegisterFaultRule i s v)
    (hdata : ∀ r, NamesData s.cfg v r → Answers i s) : Answers i s := by
  obtain ⟨hnothing, hcontrol⟩ := hfault
  obtain hv | hv | ⟨r, hv⟩ := operand_cases s.cfg v
  · exact (hnothing hv).answers hop
  · exact (hcontrol hv).answers hop
  · exact hdata r hv

theorem psh_answers (hs : s.Inv) (hop : s.progCell s.pc = some op) (imm : Int) : Answers (.psh imm) s := by
  by_cases hfull : (s.cfg.stackCap : Int) - 1 ≤ s.sp
  · exact (execFaults_psh_full imm hfull).answers hop
  · exact ⟨_, exec_psh_room imm hs.spRange.1 (Int.not_le.mp hfull)⟩

theorem pop_answers (hop : s.progCell s.pc = some op) : Answers .pop s := by
  by_cases hempty : s.sp < 0
  · exact (execFaults_pop_empty hempty).answers hop
  · exact ⟨_, exec_pop_nonempty (Int.not_lt.mp hempty)⟩

theorem slt_answers (hs : s.Inv) (hop : s.progCell s.pc = some op) : Answers .slt s := by
  by_cases hshort : s.sp < 1
  · exact (execFaults_slt_short hshort).answers hop
  · obtain ⟨left, right, htwo⟩ := hs.topTwo (Int.not_lt.mp hshort)
    exact ⟨_, exec_slt_topTwo htwo⟩

/-- The binary operation is total on a good state, where its check completes or raises a fault. -/
theorem binop_answers {m : Mnemonic} {o : ArithOp} {check : Int → Int → Attempt Unit} {f : Int → Int → Int}
    (hs : s.Inv) (hop : s.progCell s.pc = some op) (hi : exec i s = s.perform m (fun s => s.binop o check f))
    (hm : m.arity = 0)
    (hcheck : ∀ left right, check left right = .ok () ∨ ∃ c d, check left right = .error (.raise c d)) :
    Answers i s := by
  by_cases hshort : s.sp < 1
  · exact (execFaults_binop_short hi hshort).answers hop
  · obtain ⟨left, right, htwo⟩ := hs.topTwo (Int.not_lt.mp hshort)
    obtain hpass | ⟨c, d, hraise⟩ := hcheck left right
    · by_cases hover : Overflows s.cfg (f left right)
      · exact (execFaults_binop_overflow hi htwo hpass hover).answers hop
      · obtain ⟨t, ht, -⟩ := exec_binop_done hi hm htwo hpass hover
        exact ⟨t, ht⟩
    · exact (execFaults_binop_check hi htwo hraise).answers hop

end

theorem zeroDivisor_cases (left right : Int) :
    zeroDivisor left right = .ok () ∨ ∃ c d, zeroDivisor left right = .error (.raise c d) := by
  by_cases hzero : right = 0
  · exact .inr ⟨_, _, hzero ▸ zeroDivisor_zero left⟩
  · exact .inl (zeroDivisor_nonzero left hzero)

/-- An instruction that obeys the branch rule is total wherever its opcode cell can be read. -/
theorem BranchRule.answers {m : Mnemonic} {number : Int} {branch : Int → Int → Int → Instr} {cond : Int → Int → Prop}
    (h : BranchRule m number branch cond) {s : State} {op : Int} (hop : s.progCell s.pc = some op) (v imm tgt : Int) :
    Answers (branch v imm tgt) s := by
  obtain ⟨-, -, hrule⟩ := h
  obtain ⟨hfault, hdata⟩ := hrule s v imm tgt
  refine answers_of_registerRule hop hfault fun r hr => ?_
  obtain ⟨hneg, htaken, huntaken⟩ := hdata r hr
  by_cases hcond : cond (s.reg r) imm
  · by_cases htgt : tgt < 0
    · exact (hneg hcond htgt).answers hop
    · exact ⟨_, htaken hcond (Int.not_lt.mp htgt)⟩
  · exact ⟨_, huntaken hcond⟩

theorem mov_answers {s : State} {op : Int} (hop : s.progCell s.pc = some op) (rs rd : Int) :
    Answers (.mov rs rd) s := by
  obtain ⟨-, -, hrule⟩ := movCopiesARegister
  obtain ⟨hfault, hsource⟩ := hrule s rs rd
  refine answers_of_registerRule hop hfault fun src hsrc => ?_
  obtain ⟨hfault', hdone⟩ := hsource src hsrc
  refine answers_of_registerRule hop hfault' fun dst hdst => ?_
  obtain ⟨t, ht, -⟩ := hdone dst hdst
  exact ⟨t, ht⟩

theorem set_answers {s : State} {op : Int} (hop : s.progCell s.pc = some op) (v imm : Int) :
    Answers (.set v imm) s := by
  obtain ⟨-, -, hrule⟩ := setLoadsTheImmediate
  obtain ⟨hfault, hdone⟩ := hrule s v imm
  refine answers_of_registerRule hop hfault fun r hr => ?_
  obtain ⟨t, ht, -⟩ := hdone r hr
  exact ⟨t, ht⟩

theorem log_answers {s : State} {op : Int} (hop : s.progCell s.pc = some op) (v : Int) : Answers (.log v) s := by
  obtain ⟨-, -, hrule⟩ := logEmitsTheRegister
  obtain ⟨hfault, hdone⟩ := hrule s v
  exact answers_of_registerRule hop hfault fun r hr => ⟨_, hdone r hr⟩

theorem gld_answers {s : State} {op : Int} (hs : s.Inv) (hop : s.progCell s.pc = some op) (v : Int) :
    Answers (.gld v) s := by
  refine answers_of_registerRule hop (registerFaultRule_first s rfl) fun r hr => ?_
  rw [Answers, exec_gld_eq_exec_psh hr]
  exact psh_answers hs hop (s.reg r)

theorem gpt_answers {s : State} {op : Int} (hs : s.Inv) (hop : s.progCell s.pc = some op) (v : Int) :
    Answers (.gpt v) s := by
  refine answers_of_registerRule hop (registerFaultRule_first s rfl) fun r hr => ?_
  by_cases hempty : s.sp < 0
  · exact (execFaults_gpt_empty hr hempty).answers hop
  · obtain ⟨-, hcap⟩ := hs.spRange
    obtain ⟨top, htop⟩ := hs.liveWritten s.sp.toNat (by omega)
    obtain ⟨t, ht, -⟩ := exec_gpt_nonempty hr (Int.not_lt.mp hempty) (by omega) htop
    exact ⟨t, ht⟩

/-- Every instruction answers a next state on a good state whose opcode cell can be read. -/
theorem exec_answers {s : State} {op : Int} (hs : s.Inv) (hop : s.progCell s.pc = some op) (i : Instr) :
    Answers i s := by
  cases i with
  | hlt =>
    obtain ⟨-, hrule⟩ := hltHaltsAndReports
    exact ⟨_, hrule s⟩
  | nop =>
    obtain ⟨-, hrule⟩ := nopOnlyReports
    exact ⟨_, hrule s⟩
  | psh imm => exact psh_answers hs hop imm
  | pop => exact pop_answers hop
  | add => exact binop_answers hs hop (exec_add s) rfl fun _ _ => .inl rfl
  | sub => exact binop_answers hs hop (exec_sub s) rfl fun _ _ => .inl rfl
  | mul => exact binop_answers hs hop (exec_mul s) rfl fun _ _ => .inl rfl
  | div => exact binop_answers hs hop (exec_div s) rfl zeroDivisor_cases
  | slt => exact slt_answers hs hop
  | mov rs rd => exact mov_answers hop rs rd
  | set v imm => exact set_answers hop v imm
  | log v => exact log_answers hop v
  | ifEq v imm tgt => exact ifBranchesWhenEqual.answers hop v imm tgt
  | ifNe v imm tgt => exact ifnBranchesWhenNotEqual.answers hop v imm tgt
  | gld v => exact gld_answers hs hop v
  | gpt v => exact gpt_answers hs hop v

theorem raiseFault_answers {s : State} {op : Int} (hop : s.progCell s.pc = some op) (c : Cause) (d : Int) :
    ∃ t, s.raiseFault c d = .next t := ⟨_, raiseFault_eq_next.mpr ⟨op, hop, rfl⟩⟩

theorem unknownOpcode_answers {s : State} {cell : Int} (hcell : s.progCell s.pc = some cell) (op : Int) :
    ∃ t, s.unknownOpcode op = .next t := by
  cases hpolicy : s.cfg.unknownOpcode with
  | fault =>
    rw [unknownOpcode_of_fault hpolicy]
    exact raiseFault_answers hcell .unknownOpcode op
  | skip => exact ⟨_, unknownOpcode_of_skip hpolicy⟩

/-- Settles O5: below `count` the opcode cell can be read, and so every case of the step answers; no cell that decoding
needs is absent. -/
theorem goodStateAlwaysSteps : Obligations.GoodStateAlwaysSteps := by
  intro s hs
  cases hrun : s.run with
  | halted => exact ⟨s, haltedStateIsFrozen s hrun⟩
  | running =>
    by_cases hend : (s.count : Int) ≤ s.pc
    · exact ⟨_, step_exhausted hrun hend⟩
    · have hlt : s.pc < s.count := Int.not_le.mp hend
      obtain ⟨op, hop⟩ := hs.progCell_of_lt (Int.le_refl s.pc) hlt
      cases hf : s.fetch with
      | instr i =>
        rw [step_of_fetch_instr hrun hlt hf]
        exact exec_answers hs hop i
      | unknownOpcode cell =>
        rw [step_of_fetch_unknownOpcode hrun hlt hf]
        exact unknownOpcode_answers hop cell
      | truncated n =>
        rw [step_of_fetch_truncated hrun hlt hf]
        exact raiseFault_answers hop .truncatedInstruction n
      | absent index => exact absurd hf (decode_ne_absent hlt (fun _ => hs.progCell_of_lt) index)

end Sys2Proof.Machine

/-! PROOFS. What cannot be observed (10_state.md R18, 70_reset_and_hazards.md R157). `Unobserved` says of a relation
between two states what the instructions need of it: the two agree in all that an instruction reads, and the shared
operations keep it. Every such relation is kept by a step; the two statements are two such relations. -/

namespace Sys2Proof.Machine

/-! ### Attempts that go alike -/

/-- Both complete, with related results, or both abort alike. -/
def Alike {α β : Type} (P : α → β → Prop) : Attempt α → Attempt β → Prop
  | .ok a, .ok b => P a b
  | .error e, .error e' => e = e'
  | .ok _, .error _ => False
  | .error _, .ok _ => False

section
variable {α β α' β' : Type} {P : α → β → Prop} {Q : α' → β' → Prop}

theorem Alike.bind {x : Attempt α} {y : Attempt β} {f : α → Attempt α'} {g : β → Attempt β'} (h : Alike P x y)
    (hfg : ∀ a b, P a b → Alike Q (f a) (g b)) : Alike Q (x >>= f) (y >>= g) := by
  cases x with
  | error e =>
    cases y with
    | error e' => exact h
    | ok b => exact h.elim
  | ok a =>
    cases y with
    | error e' => exact h.elim
    | ok b => exact hfg a b h

/-- Two computations that begin with the same attempt need only go alike where it completes. -/
theorem Alike.bind_same {x : Attempt α} {f : α → Attempt α'} {g : α → Attempt β'}
    (hfg : ∀ a, x = .ok a → Alike Q (f a) (g a)) : Alike Q (x >>= f) (x >>= g) := by
  cases x with
  | error e => exact rfl
  | ok a => exact hfg a rfl

end

/-- Where the one answers a next state, so does the other, and the two states are related. -/
def Follows (R : State → State → Prop) (x y : Host.Outcome State Fault Refusal) : Prop :=
  ∀ s', x = .next s' → ∃ t', y = .next t' ∧ R s' t'

theorem follows_next {R : State → State → Prop} {s t : State} (h : R s t) : Follows R (.next s) (.next t) := by
  rintro s' ⟨⟩
  exact ⟨t, rfl, h⟩

theorem follows_fault {R : State → State → Prop} (f : Fault) (y : Host.Outcome State Fault Refusal) :
    Follows R (.fault f) y := by
  intro s' h
  cases h

/-! ### Relations that no instruction observes -/

/-- States related by `R` agree in everything an instruction reads, of the registers in the `visible` ones, and the
operations that instructions are made of keep `R`. -/
structure Unobserved (visible : RegName → Prop) (R : State → State → Prop) : Prop where
  cfg : ∀ {s t}, R s t → t.cfg = s.cfg
  prog : ∀ {s t}, R s t → t.prog = s.prog
  count : ∀ {s t}, R s t → t.count = s.count
  run : ∀ {s t}, R s t → t.run = s.run
  branchTaken : ∀ {s t}, R s t → t.branchTaken = s.branchTaken
  reg : ∀ {s t r}, R s t → visible r → t.reg r = s.reg r
  visibleIp : visible .ip
  visibleSp : visible .sp
  stackCell : ∀ {s t k}, R s t → k ≤ s.sp → t.stackCell k = s.stackCell k
  startCycle : ∀ {s t}, R s t → R s.startCycle t.startCycle
  setPc : ∀ {s t} (v : Int), R s t → R (s.setPc v) (t.setPc v)
  takeBranch : ∀ {s t} (v : Int), R s t → R (s.takeBranch v) (t.takeBranch v)
  emit : ∀ {s t} (e : Event), R s t → R (s.emit e) (t.emit e)
  halt : ∀ {s t} (reason : HaltReason), R s t → R (s.halt reason) (t.halt reason)
  enterFault : ∀ {s t} (c : Cause) (op d : Int), R s t → R (s.enterFault c op d) (t.enterFault c op d)
  drawScratch : ∀ {s t}, R s t → R s.drawScratch t.drawScratch
  setReg : ∀ {s t r} (v : Int), R s t → r.isControl = false → R (s.setReg r v) (t.setReg r v)
  setSp : ∀ {s t k}, R s t → k ≤ s.sp → R (s.setSp k) (t.setSp k)
  store : ∀ {s t k} (v : Int), R s t → k ≤ s.sp + 1 →
    Alike (fun s' t' => R (s'.setSp k) (t'.setSp k)) (s.writeStack k v) (t.writeStack k v)

section
variable {visible : RegName → Prop} {R : State → State → Prop} {s t : State}

theorem Unobserved.pc (hR : Unobserved visible R) (h : R s t) : t.pc = s.pc := hR.reg h hR.visibleIp

theorem Unobserved.sp (hR : Unobserved visible R) (h : R s t) : t.sp = s.sp := hR.reg h hR.visibleSp

theorem Unobserved.progCell (hR : Unobserved visible R) (h : R s t) : t.progCell = s.progCell := by
  funext k
  rw [State.progCell, State.progCell, hR.prog h, hR.count h]

theorem Unobserved.fetch (hR : Unobserved visible R) (h : R s t) : t.fetch = s.fetch := by
  rw [State.fetch, State.fetch, hR.cfg h, hR.count h, hR.progCell h, hR.pc h]

theorem Unobserved.regOperand (hR : Unobserved visible R) (h : R s t) (v : Int) :
    t.regOperand v = s.regOperand v := by
  rw [State.regOperand, State.regOperand, hR.cfg h]

theorem Unobserved.advance (hR : Unobserved visible R) (h : R s t) (n : Nat) : R (s.advance n) (t.advance n) := by
  unfold State.advance
  rw [hR.branchTaken h, hR.pc h]
  split
  · exact h
  · exact hR.setPc _ h

/-! ### The operations -/

/-- A register operand that passes the check names a data register, the same in both states. -/
theorem Unobserved.regOperand_bind (hR : Unobserved visible R) (h : R s t) {v : Int} {P : State → State → Prop}
    {f g : RegName → Attempt State} (hfg : ∀ r, NamesData s.cfg v r → Alike P (f r) (g r)) :
    Alike P (s.regOperand v >>= f) (t.regOperand v >>= g) := by
  rw [hR.regOperand h]
  exact Alike.bind_same fun r hr => hfg r (regOperand_eq_ok.mp hr)

theorem Unobserved.push (hR : Unobserved visible R) (h : R s t) (v : Int) : Alike R (s.push v) (t.push v) := by
  unfold State.push
  rw [hR.cfg h, hR.sp h]
  exact Alike.bind_same fun _ _ => (hR.store v h (Int.le_refl _)).bind fun _ _ hstored => hstored

/-- Two replacements of the two top elements with the same operands and result, and related states. -/
def SameReplacement (R : State → State → Prop) (x y : Int × Int × Int × State) : Prop :=
  y.1 = x.1 ∧ y.2.1 = x.2.1 ∧ y.2.2.1 = x.2.2.1 ∧ R x.2.2.2 y.2.2.2

/-- Both operands lie at or below SP, and so does the cell that is stored to. -/
theorem Unobserved.replaceTopTwo (hR : Unobserved visible R) (h : R s t) (f : Int → Int → Attempt Int) :
    Alike (SameReplacement R) (s.replaceTopTwo f) (t.replaceTopTwo f) := by
  unfold State.replaceTopTwo
  rw [hR.sp h, hR.stackCell h (Int.le_refl s.sp), hR.stackCell (k := s.sp - 1) h (by omega)]
  refine Alike.bind_same fun _ _ => Alike.bind_same fun right _ => Alike.bind_same fun left _ =>
    Alike.bind_same fun r _ => ?_
  exact (hR.store (k := s.sp - 1) r h (by omega)).bind fun _ _ hstored => ⟨rfl, rfl, rfl, hstored⟩

theorem Unobserved.binop (hR : Unobserved visible R) (h : R s t) (op : ArithOp) (check : Int → Int → Attempt Unit)
    (f : Int → Int → Int) : Alike R (s.binop op check f) (t.binop op check f) := by
  unfold State.binop
  rw [hR.cfg h]
  refine (hR.replaceTopTwo h _).bind ?_
  rintro ⟨left, right, r, s'⟩ ⟨left', right', r', t'⟩ ⟨hleft, hright, hr, hstate⟩
  dsimp only at hleft hright hr hstate
  subst hleft hright hr
  exact hR.emit _ (hR.drawScratch hstate)

theorem Unobserved.compareTopTwo (hR : Unobserved visible R) (h : R s t) :
    Alike R s.compareTopTwo t.compareTopTwo :=
  (hR.replaceTopTwo h _).bind fun _ _ ⟨_, _, _, hstate⟩ => hstate

theorem Unobserved.branch (hR : Unobserved visible R) (h : R s t) (cond : Bool) (tgt : Int) :
    Alike R (s.branch cond tgt) (t.branch cond tgt) := by
  unfold State.branch
  split
  · exact Alike.bind_same fun _ _ => hR.takeBranch tgt h
  · exact h

theorem Unobserved.raiseFault (hR : Unobserved visible R) (h : R s t) (c : Cause) (d : Int) :
    Follows R (s.raiseFault c d) (t.raiseFault c d) := by
  unfold State.raiseFault
  rw [hR.progCell h, hR.pc h]
  cases s.progCell s.pc with
  | none => exact follows_fault _ _
  | some op => exact follows_next (hR.enterFault c op d h)

theorem Unobserved.perform (hR : Unobserved visible R) (h : R s t) {m : Mnemonic} {body : State → Attempt State}
    (hbody : ∀ {u w}, R u w → u.cfg = s.cfg → Alike R (body u) (body w)) :
    Follows R (s.perform m body) (t.perform m body) := by
  have hcase : Alike R (body s.startCycle) (body t.startCycle) := hbody (hR.startCycle h) rfl
  unfold State.perform
  cases hs : body s.startCycle with
  | ok u =>
    cases ht : body t.startCycle with
    | ok w =>
      rw [hs, ht] at hcase
      exact follows_next (hR.advance hcase m.arity)
    | error e => simp [hs, ht, Alike] at hcase
  | error e =>
    cases ht : body t.startCycle with
    | ok w => simp [hs, ht, Alike] at hcase
    | error e' =>
      rw [hs, ht] at hcase
      obtain rfl : e = e' := hcase
      cases e with
      | raise c d => exact hR.raiseFault h c d
      | stop f => exact follows_fault f _

/-! ### The instructions -/

/-- The register operands whose value an instruction reads (40_dispatch_cycle.md R63). -/
def sourceOperands : Instr → List Int
  | .mov r _ | .log r | .ifEq r _ _ | .ifNe r _ _ | .gld r => [r]
  | .hlt | .psh _ | .pop | .add | .mul | .div | .sub | .slt | .set _ _ | .gpt _ | .nop => []

/-- A branch on a test of a visible register's value and the immediate. -/
theorem Unobserved.registerBranch (hR : Unobserved visible R) (h : R s t) (m : Mnemonic) (test : Int → Int → Bool)
    {v : Int} (imm tgt : Int) (hsource : ∀ r, NamesData s.cfg v r → visible r) :
    Follows R (s.perform m fun s => s.regOperand v >>= fun src => s.branch (test (s.reg src) imm) tgt)
      (t.perform m fun s => s.regOperand v >>= fun src => s.branch (test (s.reg src) imm) tgt) :=
  hR.perform h fun {u w} hu hcfg => hR.regOperand_bind hu fun r hr => by
    rw [hR.reg hu (hsource r (hcfg ▸ hr))]
    exact hR.branch hu _ tgt

/-- An instruction whose source operands name visible registers keeps the relation. -/
theorem Unobserved.exec (hR : Unobserved visible R) (h : R s t) {i : Instr}
    (hsources : ∀ v ∈ sourceOperands i, ∀ r, NamesData s.cfg v r → visible r) :
    Follows R (exec i s) (exec i t) := by
  cases i with
  | hlt =>
    rw [exec_hlt, exec_hlt]
    exact hR.perform h fun hu _ => hR.emit _ (hR.halt _ hu)
  | nop =>
    rw [exec_nop, exec_nop]
    exact hR.perform h fun hu _ => hR.emit _ hu
  | psh imm => exact hR.perform h fun hu _ => hR.push hu imm
  | pop =>
    rw [exec_pop, exec_pop]
    refine hR.perform h fun {u w} hu _ => ?_
    rw [hR.sp hu]
    exact Alike.bind_same fun _ _ => hR.setSp hu (by omega)
  | add => exact hR.perform h fun hu _ => hR.binop hu ..
  | sub => exact hR.perform h fun hu _ => hR.binop hu ..
  | mul => exact hR.perform h fun hu _ => hR.binop hu ..
  | div => exact hR.perform h fun hu _ => hR.binop hu ..
  | slt => exact hR.perform h fun hu _ => hR.compareTopTwo hu
  | mov rs rd =>
    rw [exec_mov, exec_mov]
    refine hR.perform h fun {u w} hu hcfg => hR.regOperand_bind hu fun src hsrc => ?_
    refine hR.regOperand_bind hu fun dst ⟨_, _, hdata⟩ => ?_
    have hvisible := hsources rs (List.mem_singleton.mpr rfl) src (hcfg ▸ hsrc)
    rw [hR.reg hu hvisible]
    exact hR.setReg _ hu hdata
  | set v imm =>
    rw [exec_set, exec_set]
    exact hR.perform h fun hu _ => hR.regOperand_bind hu fun dst ⟨_, _, hdata⟩ => hR.setReg imm hu hdata
  | log v =>
    rw [exec_log, exec_log]
    refine hR.perform h fun {u w} hu hcfg => hR.regOperand_bind hu fun src hsrc => ?_
    have hvisible := hsources v (List.mem_singleton.mpr rfl) src (hcfg ▸ hsrc)
    rw [hR.reg hu hvisible]
    exact hR.emit _ hu
  | ifEq v imm tgt =>
    exact hR.registerBranch h .ifEq (· == ·) imm tgt (hsources v (List.mem_singleton.mpr rfl))
  | ifNe v imm tgt =>
    exact hR.registerBranch h .ifNe (· != ·) imm tgt (hsources v (List.mem_singleton.mpr rfl))
  | gld v =>
    rw [exec_gld, exec_gld]
    refine hR.perform h fun {u w} hu hcfg => hR.regOperand_bind hu fun src hsrc => ?_
    have hvisible := hsources v (List.mem_singleton.mpr rfl) src (hcfg ▸ hsrc)
    rw [hR.reg hu hvisible]
    exact hR.push hu _
  | gpt v =>
    rw [exec_gpt, exec_gpt]
    refine hR.perform h fun {u w} hu _ => hR.regOperand_bind hu fun dst ⟨_, _, hdata⟩ => ?_
    rw [hR.sp hu, hR.stackCell hu (Int.le_refl _)]
    exact Alike.bind_same fun _ _ => Alike.bind_same fun top _ => hR.setReg top hu hdata

/-! ### The step -/

theorem Unobserved.unknownOpcode (hR : Unobserved visible R) (h : R s t) (op : Int) :
    Follows R (s.unknownOpcode op) (t.unknownOpcode op) := by
  unfold State.unknownOpcode
  rw [hR.cfg h, hR.pc h]
  cases s.cfg.unknownOpcode with
  | fault => exact hR.raiseFault h .unknownOpcode op
  | skip => exact follows_next (hR.setPc _ (hR.emit _ (hR.startCycle h)))

/-- A step keeps an unobserved relation where what it runs reads only visible registers. -/
theorem Unobserved.step (hR : Unobserved visible R) (h : R s t)
    (hsources : ∀ i, s.fetch = .instr i → ∀ v ∈ sourceOperands i, ∀ r, NamesData s.cfg v r → visible r) :
    Follows R (step s) (step t) := by
  unfold Machine.step
  rw [hR.run h, hR.count h, hR.pc h, hR.fetch h]
  cases s.run with
  | halted => exact follows_next h
  | running =>
    dsimp only
    split
    · exact follows_next (hR.halt .exhausted (hR.startCycle h))
    · cases hf : s.fetch with
      | instr i => exact hR.exec h (hsources i hf)
      | unknownOpcode op => exact hR.unknownOpcode h op
      | truncated n => exact hR.raiseFault h .truncatedInstruction n
      | absent index => exact follows_fault _ _

end

/-! ### Stack cells above SP -/

theorem SameButHidden.stackCell_eq {s t : State} {k : Int} (h : SameButHidden s t) (hk : k ≤ s.sp) :
    t.stackCell k = s.stackCell k := by
  obtain ⟨⟨m, rfl⟩, hread⟩ := h
  unfold State.stackCell
  dsimp only
  split
  · rename_i hrange
    have hsame : m.read k.toNat = s.stack.read k.toNat := hread k.toNat (by omega)
    rw [hsame]
  · rfl

/-- A store at most one above SP, with SP moved there, hides no difference and shows none. -/
theorem SameButHidden.store {s t : State} {k : Int} (v : Int) (h : SameButHidden s t) (hk : k ≤ s.sp + 1) :
    Alike (fun s' t' => SameButHidden (s'.setSp k) (t'.setSp k)) (s.writeStack k v) (t.writeStack k v) := by
  obtain ⟨⟨m, rfl⟩, hread⟩ := h
  unfold State.writeStack
  dsimp only
  split
  · refine ⟨⟨m.write k.toNat v, rfl⟩, fun n hn => ?_⟩
    change (n : Int) ≤ k at hn
    change (m.write k.toNat v).read n = (s.stack.write k.toNat v).read n
    rw [Memory.read_write, Memory.read_write]
    split
    · rfl
    · exact hread n (by omega)
  · exact rfl

/-- The cells above SP are read by no instruction: every read is at or below SP, and SP rises only with a store. -/
theorem sameButHidden_unobserved : Unobserved (fun _ => True) SameButHidden where
  cfg := by rintro s t ⟨⟨m, rfl⟩, -⟩; rfl
  prog := by rintro s t ⟨⟨m, rfl⟩, -⟩; rfl
  count := by rintro s t ⟨⟨m, rfl⟩, -⟩; rfl
  run := by rintro s t ⟨⟨m, rfl⟩, -⟩; rfl
  branchTaken := by rintro s t ⟨⟨m, rfl⟩, -⟩; rfl
  reg := by rintro s t r ⟨⟨m, rfl⟩, -⟩ -; rfl
  visibleIp := trivial
  visibleSp := trivial
  stackCell := SameButHidden.stackCell_eq
  startCycle := by rintro s t ⟨⟨m, rfl⟩, hread⟩; exact ⟨⟨m, rfl⟩, hread⟩
  setPc := by rintro s t v ⟨⟨m, rfl⟩, hread⟩; exact ⟨⟨m, rfl⟩, hread⟩
  takeBranch := by rintro s t v ⟨⟨m, rfl⟩, hread⟩; exact ⟨⟨m, rfl⟩, hread⟩
  emit := by rintro s t e ⟨⟨m, rfl⟩, hread⟩; exact ⟨⟨m, rfl⟩, hread⟩
  halt := by rintro s t reason ⟨⟨m, rfl⟩, hread⟩; exact ⟨⟨m, rfl⟩, hread⟩
  enterFault := by rintro s t c op d ⟨⟨m, rfl⟩, hread⟩; exact ⟨⟨m, rfl⟩, hread⟩
  drawScratch := by rintro s t ⟨⟨m, rfl⟩, hread⟩; exact ⟨⟨m, rfl⟩, hread⟩
  setReg := by
    rintro s t r v ⟨⟨m, rfl⟩, hread⟩ hdata
    have hsp : (s.setReg r v).sp = s.sp := s.setReg_control r .sp v hdata rfl
    exact ⟨⟨m, rfl⟩, fun n hn => hread n (hsp ▸ hn)⟩
  setSp := by
    rintro s t k ⟨⟨m, rfl⟩, hread⟩ hk
    exact ⟨⟨m, rfl⟩, fun n hn => hread n (Int.le_trans hn hk)⟩
  store := SameButHidden.store

/-- Settles O47: no register is hidden by this relation, so it is kept by every step. -/
theorem hiddenStackCellsAreUnobservable : Obligations.HiddenStackCellsAreUnobservable :=
  fun _ _ s' h hstep => sameButHidden_unobserved.step h (fun _ _ _ _ _ _ => trivial) s' hstep

/-! ### EX, EXA and the draws -/

/-- The instructions that read EX or EXA are those with a source operand that names one of them. -/
theorem readsScratch_iff {c : Config} {i : Instr} :
    ReadsScratch c i ↔ ∃ v ∈ sourceOperands i, NamesData c v .ex ∨ NamesData c v .exa := by
  cases i <;> simp [ReadsScratch, sourceOperands]

theorem SameButScratch.reg_eq {s t : State} {r : RegName} (h : SameButScratch s t) (hr : r ≠ .ex ∧ r ≠ .exa) :
    t.reg r = s.reg r := by
  obtain ⟨ex, exa, n, rfl⟩ := h
  exact (RegBank.get_set_other (s.regs.set .ex ex) .exa r exa hr.2).trans (RegBank.get_set_other s.regs .ex r ex hr.1)

/-- Writing a register of both banks: where it is EX or EXA, one difference is gone. -/
theorem SameButScratch.setReg {s t : State} (r : RegName) (v : Int) (h : SameButScratch s t) :
    SameButScratch (s.setReg r v) (t.setReg r v) := by
  obtain ⟨ex, exa, n, rfl⟩ := h
  cases r with
  | ex => exact ⟨v, exa, n, rfl⟩
  | exa => exact ⟨ex, v, n, rfl⟩
  | _ => exact ⟨ex, exa, n, rfl⟩

theorem SameButScratch.store {s t : State} (k v : Int) (h : SameButScratch s t) :
    Alike (fun s' t' => SameButScratch (s'.setSp k) (t'.setSp k)) (s.writeStack k v) (t.writeStack k v) := by
  obtain ⟨ex, exa, n, rfl⟩ := h
  unfold State.writeStack
  dsimp only
  split
  · exact ⟨ex, exa, n, rfl⟩
  · exact rfl

/-- EX and EXA are read through register operands alone, and the draw counter by the draws alone, which go to EX and
EXA. -/
theorem sameButScratch_unobserved : Unobserved (fun r => r ≠ .ex ∧ r ≠ .exa) SameButScratch where
  cfg := by rintro s t ⟨ex, exa, n, rfl⟩; rfl
  prog := by rintro s t ⟨ex, exa, n, rfl⟩; rfl
  count := by rintro s t ⟨ex, exa, n, rfl⟩; rfl
  run := by rintro s t ⟨ex, exa, n, rfl⟩; rfl
  branchTaken := by rintro s t ⟨ex, exa, n, rfl⟩; rfl
  reg := SameButScratch.reg_eq
  visibleIp := by decide
  visibleSp := by decide
  stackCell := by rintro s t k ⟨ex, exa, n, rfl⟩ -; rfl
  startCycle := by rintro s t ⟨ex, exa, n, rfl⟩; exact ⟨ex, exa, n, rfl⟩
  setPc := by rintro s t v ⟨ex, exa, n, rfl⟩; exact ⟨ex, exa, n, rfl⟩
  takeBranch := by rintro s t v ⟨ex, exa, n, rfl⟩; exact ⟨ex, exa, n, rfl⟩
  emit := by rintro s t e ⟨ex, exa, n, rfl⟩; exact ⟨ex, exa, n, rfl⟩
  halt := by rintro s t reason ⟨ex, exa, n, rfl⟩; exact ⟨ex, exa, n, rfl⟩
  enterFault := by rintro s t c op d ⟨ex, exa, n, rfl⟩; exact ⟨ex, exa, n, rfl⟩
  drawScratch := by
    rintro s t ⟨ex, exa, n, rfl⟩
    exact ⟨drawn s.cfg n, drawn s.cfg (n + 1), n + 2, rfl⟩
  setReg := fun v h _ => h.setReg _ v
  setSp := by rintro s t k ⟨ex, exa, n, rfl⟩ -; exact ⟨ex, exa, n, rfl⟩
  store := fun v h _ => h.store _ v

/-- Settles O48: an instruction that does not read EX or EXA has only visible sources. -/
theorem scratchValuesDoNotLeak : Obligations.ScratchValuesDoNotLeak := by
  intro s t s' h hreads hstep
  refine sameButScratch_unobserved.step h (fun i hf v hv r hr => ?_) s' hstep
  have hnot := mt readsScratch_iff.mpr (hreads i hf)
  refine ⟨?_, ?_⟩
  · rintro rfl
    exact hnot ⟨v, hv, .inl hr⟩
  · rintro rfl
    exact hnot ⟨v, hv, .inr hr⟩

end Sys2Proof.Machine
